-- ==== Sys2Proof/Word.lean ====
section
/-! DEFINITION. The word types of the Emulator CORE (00_scope.md R5). Everything that computes with them and that a
test could show wrong stands in Decode.lean or under Machine/. -/

namespace Sys2Proof

/-- A Word: "the machine's native datum and address unit", 16 bits (00_scope.md R5). Registers, memory cells, addresses,
immediates and instruction words are Words. -/
abbrev Word := BitVec 16

/-- One byte of the memory image at the load boundary (20_memory.md R30). -/
abbrev Byte := BitVec 8

/-- A 5-bit register field of a first word, before it is decoded (30_encoding.md R42). -/
abbrev RegField := BitVec 5

end Sys2Proof
end

