-- ==== Sys2Proof/Syntax.lean ====
section
/-! DEFINITION. The syntax of the Emulator CORE: register identifiers (10_state.md R8) and the 43 instructions
(30_encoding.md R47), one constructor for each row of spec/opcode_table.json, in its order. Operands are already decoded:
a register operand is one of the 18 identifiers, an immediate or an address is a whole Word (R46). -/

namespace Sys2Proof

/-- A register identifier: "an enumerated value over {r0..r15, rip, rp}" (10_state.md R8). The three constructors are the
three backing stores of R10. Identifiers 18 to 31 have no value here: they never reach a handler (40_execution_loop.md R60). -/
inductive Reg where
  /-- `r0` to `r15`, identifiers 0 to 15 (R7). -/
  | gpr (n : Fin 16)
  /-- `rip`, identifier 16 (R11). -/
  | rip
  /-- `rp`, identifier 17 (R9). -/
  | rp
deriving DecidableEq, Repr

/-- The instructions. `rd` is a destination, `rs` a source; the field each operand stands in is in 30_encoding.md R47. -/
inductive Instr where
  /-- `MOV rd, rs` (41_data_movement.md R71). -/
  | mov (rd rs : Reg)
  /-- `LDI rd, imm` (R72). -/
  | ldi (rd : Reg) (imm : Word)
  /-- `LD rd, [addr]` (R73). -/
  | ld (rd : Reg) (addr : Word)
  /-- `ST [addr], rs` (R74); `rs` is in field `ra`. -/
  | st (addr : Word) (rs : Reg)
  /-- `LDR rd, [rs]` (R75). -/
  | ldr (rd rs : Reg)
  /-- `STR [rd], rs` (R76): `rd` holds the address. -/
  | str (rd rs : Reg)
  /-- `STI [addr], imm` (R77). -/
  | sti (addr imm : Word)
  /-- `XCHG ra, rb` (R78). -/
  | xchg (ra rb : Reg)
  /-- `RDF rd` (R79). -/
  | rdf (rd : Reg)
  /-- `WRF rs` (R80). -/
  | wrf (rs : Reg)
  /-- `ADD rd, rs` (42_arithmetic.md R82). -/
  | add (rd rs : Reg)
  /-- `ADC rd, rs` (R83). -/
  | adc (rd rs : Reg)
  /-- `CMP ra, rb` (R84). -/
  | cmp (ra rb : Reg)
  /-- `INC rd` (R85). -/
  | inc (rd : Reg)
  /-- `DEC rd` (R86). -/
  | dec (rd : Reg)
  /-- `NEG rd` (R87). -/
  | neg (rd : Reg)
  /-- `MUL rd, rs` (R88). -/
  | mul (rd rs : Reg)
  /-- `DIV rd, rs` (R89). -/
  | div (rd rs : Reg)
  /-- `AND rd, rs` (43_logic.md R92). -/
  | and (rd rs : Reg)
  /-- `OR rd, rs` (R93). -/
  | or (rd rs : Reg)
  /-- `XOR rd, rs` (R94). -/
  | xor (rd rs : Reg)
  /-- `NOT rd` (R95). -/
  | not (rd : Reg)
  /-- `TEST ra, rb` (R96). -/
  | test (ra rb : Reg)
  /-- `SHL rd` (44_shift_rotate.md R98). -/
  | shl (rd : Reg)
  /-- `SHR rd` (R99). -/
  | shr (rd : Reg)
  /-- `SAR rd` (R100). -/
  | sar (rd : Reg)
  /-- `ROL rd` (R101). -/
  | rol (rd : Reg)
  /-- `ROR rd` (R102). -/
  | ror (rd : Reg)
  /-- `RCL rd` (R103). -/
  | rcl (rd : Reg)
  /-- `RCR rd` (R104). -/
  | rcr (rd : Reg)
  /-- `JMP addr` (45_control_flow.md R106). -/
  | jmp (addr : Word)
  /-- `JMPR rs` (R107). -/
  | jmpr (rs : Reg)
  /-- `JZ addr` (R108). -/
  | jz (addr : Word)
  /-- `JNZ addr` (R109). -/
  | jnz (addr : Word)
  /-- `JS addr` (R110). -/
  | js (addr : Word)
  /-- `JNS addr` (R111). -/
  | jns (addr : Word)
  /-- `JC addr` (R112). -/
  | jc (addr : Word)
  /-- `JNC addr` (R113). -/
  | jnc (addr : Word)
  /-- `JO addr` (R114). -/
  | jo (addr : Word)
  /-- `JNO addr` (R115). -/
  | jno (addr : Word)
  /-- `JDZ addr` (R116). -/
  | jdz (addr : Word)
  /-- `JNDZ addr` (R117). -/
  | jndz (addr : Word)
  /-- `HLT rs` (46_halt.md R119). -/
  | hlt (rs : Reg)
deriving DecidableEq, Repr

end Sys2Proof
end

