-- ==== Sys2Proof/Decode.lean ====
section
/-! DEFINITION. The decoder of 30_encoding.md, total on any Words, and the encoder that is its inverse (R55). The decoder's
answer is one of the three things R50 says a first word is. -/

namespace Sys2Proof

/-- What a first word with its two following Words decodes to: "exactly one of: a valid instruction, an `InvalidOpcode`
fault, or an `InvalidRegister` fault" (30_encoding.md R50). -/
inductive Decoded where
  /-- A valid instruction. -/
  | instr (i : Instr)
  /-- The opcode is unassigned, or a reserved field is not 0 (R48, R49). -/
  | invalidOpcode
  /-- A register field holds `id`, one of 18 to 31 (R45); with two such fields, `ra`'s value (60_exceptions.md R127). -/
  | invalidRegister (id : RegField)
deriving DecidableEq, Repr

/-! ### Fields of the first word (30_encoding.md R42) -/

/-- `op`: bits 15 to 10. -/
def opField (first : Word) : BitVec 6 := first.extractLsb' 10 6

/-- `ra`: bits 9 to 5. -/
def raField (first : Word) : RegField := first.extractLsb' 5 5

/-- `rb`: bits 4 to 0. -/
def rbField (first : Word) : RegField := first.extractLsb' 0 5

/-- The first word `op * 1024 + ra * 32 + rb` (R42). -/
def firstWord (op : BitVec 6) (ra rb : RegField) : Word := op ++ ra ++ rb

/-- Identifier to register: 0 to 15 are `r0` to `r15`, 16 is `rip`, 17 is `rp`, the others name none (10_state.md R8). -/
def Reg.ofField (id : RegField) : Option Reg :=
  if h : id.toNat < 16 then some (.gpr ⟨id.toNat, h⟩)
  else if id = 16#5 then some .rip
  else if id = 17#5 then some .rp
  else none

/-- Register to identifier (10_state.md R8). -/
def Reg.toField : Reg → RegField
  | .gpr n => BitVec.ofNat 5 n.val
  | .rip => 16#5
  | .rp => 17#5

/-! ### Formats: the checks in the order of 40_execution_loop.md R60, after the opcode is known to be assigned -/

/-- Format RR: both fields are register identifiers, `ra` is checked before `rb` (60_exceptions.md R127). -/
def decodeRR (mk : Reg → Reg → Instr) (ra rb : RegField) : Decoded :=
  match Reg.ofField ra with
  | none => .invalidRegister ra
  | some a =>
    match Reg.ofField rb with
    | none => .invalidRegister rb
    | some b => .instr (mk a b)

/-- Formats R, RI, RA: `rb` is reserved and checked first, then `ra` is a register identifier (R60, R127). -/
def decodeR (mk : Reg → Instr) (ra rb : RegField) : Decoded :=
  if rb ≠ 0#5 then .invalidOpcode
  else
    match Reg.ofField ra with
    | none => .invalidRegister ra
    | some a => .instr (mk a)

/-- Formats A, AI: both register fields are reserved (30_encoding.md R44, R49). -/
def decodeA (i : Instr) (ra rb : RegField) : Decoded :=
  if ra ≠ 0#5 ∨ rb ≠ 0#5 then .invalidOpcode else .instr i

/-- The opcode map (30_encoding.md R47), with the fields and the extension words given; every other opcode is unassigned
(R48). -/
def decodeFields (op : BitVec 6) (ra rb : RegField) (ext1 ext2 : Word) : Decoded :=
  match op.toNat with
  | 0x01 => decodeRR .mov ra rb
  | 0x02 => decodeR (fun rd => .ldi rd ext1) ra rb
  | 0x03 => decodeR (fun rd => .ld rd ext1) ra rb
  | 0x04 => decodeR (fun rs => .st ext1 rs) ra rb
  | 0x05 => decodeRR .ldr ra rb
  | 0x06 => decodeRR .str ra rb
  | 0x07 => decodeA (.sti ext1 ext2) ra rb
  | 0x08 => decodeRR .xchg ra rb
  | 0x09 => decodeR .rdf ra rb
  | 0x0A => decodeR .wrf ra rb
  | 0x10 => decodeRR .add ra rb
  | 0x11 => decodeRR .adc ra rb
  | 0x12 => decodeRR .cmp ra rb
  | 0x13 => decodeR .inc ra rb
  | 0x14 => decodeR .dec ra rb
  | 0x15 => decodeR .neg ra rb
  | 0x16 => decodeRR .mul ra rb
  | 0x17 => decodeRR .div ra rb
  | 0x18 => decodeRR .and ra rb
  | 0x19 => decodeRR .or ra rb
  | 0x1A => decodeRR .xor ra rb
  | 0x1B => decodeR .not ra rb
  | 0x1C => decodeRR .test ra rb
  | 0x20 => decodeR .shl ra rb
  | 0x21 => decodeR .shr ra rb
  | 0x22 => decodeR .sar ra rb
  | 0x23 => decodeR .rol ra rb
  | 0x24 => decodeR .ror ra rb
  | 0x25 => decodeR .rcl ra rb
  | 0x26 => decodeR .rcr ra rb
  | 0x28 => decodeA (.jmp ext1) ra rb
  | 0x29 => decodeR .jmpr ra rb
  | 0x2A => decodeA (.jz ext1) ra rb
  | 0x2B => decodeA (.jnz ext1) ra rb
  | 0x2C => decodeA (.js ext1) ra rb
  | 0x2D => decodeA (.jns ext1) ra rb
  | 0x2E => decodeA (.jc ext1) ra rb
  | 0x2F => decodeA (.jnc ext1) ra rb
  | 0x30 => decodeA (.jo ext1) ra rb
  | 0x31 => decodeA (.jno ext1) ra rb
  | 0x32 => decodeA (.jdz ext1) ra rb
  | 0x33 => decodeA (.jndz ext1) ra rb
  | 0x38 => decodeR .hlt ra rb
  | _ => .invalidOpcode

/-- Decoding of a first word with the Words at the next two addresses. A format without an extension word does not look at
`ext1`, one without a second does not look at `ext2` (30_encoding.md R43, R46; 40_execution_loop.md R58, R59). -/
def decode (first ext1 ext2 : Word) : Decoded :=
  decodeFields (opField first) (raField first) (rbField first) ext1 ext2

/-- Decoding at the head of a list of Words, at ascending addresses (20_memory.md R29). A Word the list does not have
reads as 0x0000, as memory after reset does. -/
def decodeWords (ws : List Word) : Decoded := decode (ws.getD 0 0) (ws.getD 1 0) (ws.getD 2 0)

/-- Length in Words as a function of the opcode alone (30_encoding.md R51): `len` of an assigned opcode. -/
def lengthOfOp (op : BitVec 6) : Nat :=
  match op.toNat with
  | 0x07 => 3
  | 0x02 | 0x03 | 0x04 | 0x28 | 0x2A | 0x2B | 0x2C | 0x2D | 0x2E | 0x2F | 0x30 | 0x31 | 0x32 | 0x33 => 2
  | _ => 1

/-- The encoder (30_encoding.md R55): the first word, then the extension words the format has. -/
def encode : Instr → List Word
  | .mov rd rs => [firstWord 0x01 rd.toField rs.toField]
  | .ldi rd imm => [firstWord 0x02 rd.toField 0, imm]
  | .ld rd addr => [firstWord 0x03 rd.toField 0, addr]
  | .st addr rs => [firstWord 0x04 rs.toField 0, addr]
  | .ldr rd rs => [firstWord 0x05 rd.toField rs.toField]
  | .str rd rs => [firstWord 0x06 rd.toField rs.toField]
  | .sti addr imm => [firstWord 0x07 0 0, addr, imm]
  | .xchg ra rb => [firstWord 0x08 ra.toField rb.toField]
  | .rdf rd => [firstWord 0x09 rd.toField 0]
  | .wrf rs => [firstWord 0x0A rs.toField 0]
  | .add rd rs => [firstWord 0x10 rd.toField rs.toField]
  | .adc rd rs => [firstWord 0x11 rd.toField rs.toField]
  | .cmp ra rb => [firstWord 0x12 ra.toField rb.toField]
  | .inc rd => [firstWord 0x13 rd.toField 0]
  | .dec rd => [firstWord 0x14 rd.toField 0]
  | .neg rd => [firstWord 0x15 rd.toField 0]
  | .mul rd rs => [firstWord 0x16 rd.toField rs.toField]
  | .div rd rs => [firstWord 0x17 rd.toField rs.toField]
  | .and rd rs => [firstWord 0x18 rd.toField rs.toField]
  | .or rd rs => [firstWord 0x19 rd.toField rs.toField]
  | .xor rd rs => [firstWord 0x1A rd.toField rs.toField]
  | .not rd => [firstWord 0x1B rd.toField 0]
  | .test ra rb => [firstWord 0x1C ra.toField rb.toField]
  | .shl rd => [firstWord 0x20 rd.toField 0]
  | .shr rd => [firstWord 0x21 rd.toField 0]
  | .sar rd => [firstWord 0x22 rd.toField 0]
  | .rol rd => [firstWord 0x23 rd.toField 0]
  | .ror rd => [firstWord 0x24 rd.toField 0]
  | .rcl rd => [firstWord 0x25 rd.toField 0]
  | .rcr rd => [firstWord 0x26 rd.toField 0]
  | .jmp addr => [firstWord 0x28 0 0, addr]
  | .jmpr rs => [firstWord 0x29 rs.toField 0]
  | .jz addr => [firstWord 0x2A 0 0, addr]
  | .jnz addr => [firstWord 0x2B 0 0, addr]
  | .js addr => [firstWord 0x2C 0 0, addr]
  | .jns addr => [firstWord 0x2D 0 0, addr]
  | .jc addr => [firstWord 0x2E 0 0, addr]
  | .jnc addr => [firstWord 0x2F 0 0, addr]
  | .jo addr => [firstWord 0x30 0 0, addr]
  | .jno addr => [firstWord 0x31 0 0, addr]
  | .jdz addr => [firstWord 0x32 0 0, addr]
  | .jndz addr => [firstWord 0x33 0 0, addr]
  | .hlt rs => [firstWord 0x38 rs.toField 0]

/-- The opcode of an instruction (30_encoding.md R47). -/
def opcodeOf (i : Instr) : BitVec 6 := opField ((encode i).getD 0 0)

/-- `len` of an instruction, from its opcode (30_encoding.md R51): the "known width" that the loop adds. -/
def instrLength (i : Instr) : Nat := lengthOfOp (opcodeOf i)

/-! ### The host's numbering of an instruction's bits -/

/-- The low and the high byte of a Word, in the order the image stores them (20_memory.md R30). -/
def bytesOfWord (w : Word) : List Byte := [w.extractLsb' 0 8, w.extractLsb' 8 8]

/-- Words from bytes stored low byte first (20_memory.md R30); an odd last byte is a Word's low byte. -/
def wordsOfBytes : List Byte → List Word
  | [] => []
  | [lo] => [0#8 ++ lo]
  | lo :: hi :: rest => (hi ++ lo) :: wordsOfBytes rest

/-- The three Words of an instruction whose bits are the low `nbits` of `w`, first word lowest, every bit above 0. -/
def tableWords (nbits w : Nat) : List Word :=
  let bits := w % 2 ^ nbits
  [BitVec.ofNat 16 bits, BitVec.ofNat 16 (bits / 2 ^ 16), BitVec.ofNat 16 (bits / 2 ^ 32)]

/-- The instruction the decoder reads from an instruction whose bits are `w`, laid out in bytes as the image stores them. -/
def decodeTableWord (nbits w : Nat) : Option Instr :=
  match decodeWords (wordsOfBytes ((tableWords nbits w).flatMap bytesOfWord)) with
  | .instr i => some i
  | .invalidOpcode => none
  | .invalidRegister _ => none

end Sys2Proof
end

