-- ==== Sys2Proof/Config.lean ====
section
/-! DEFINITION. The implementation parameters of 00_scope.md R4. All are fixed by the spec; the one left to the host,
`ENTRY`, is an argument of the set-entry event and has here only its default. No free value: 40_execution_loop.md R69. -/

namespace Sys2Proof.Config

/-- `MEM_CELLS`: number of memory cells (00_scope.md R4). -/
abbrev memCells : Nat := 65536

/-- Total storage in bytes, which is also the exact length of a memory image (20_memory.md R25, R30). -/
abbrev memBytes : Nat := 131072

/-- Default of the parameter `ENTRY` (70_reset_and_hazards.md R137, decision D28). -/
abbrev defaultEntry : Word := 0x0000#16

/-- What a byte of memory that nothing has written holds: reset clears every cell (10_state.md R24, 70_reset_and_hazards.md
R134). It is the value that the canonical form of memory leaves unlisted. -/
abbrev resetByte : Byte := 0x00#8

end Sys2Proof.Config
end

