-- ==== Sys2Proof/Machine/State.lean ====
section
/-! DEFINITION. The architectural state of the core: exactly 10_state.md R6, "and nothing else", and its reset values (R24). -/

namespace Sys2Proof.Machine

/-- Memory, as its image's bytes: byte number `2a` is the low byte of the cell `M[a]` and `2a + 1` the high byte, the order
of the image load (20_memory.md R30). Only bytes that differ from what reset leaves are listed, at strictly rising numbers
(`Memory.wf`). DESIGN CHOICE of representation, safe: no instruction observes a byte order (R29); log 1. -/
abbrev Memory := List Host.Cell

/-- The lifecycle status (10_state.md R19). The source's `running` is `status = running`. -/
inductive Status where
  /-- Constructed, loaded or not: the core executes nothing. -/
  | ready
  /-- One instruction per step. -/
  | running
  /-- A HLT has executed: nothing executes, `result` is valid. -/
  | halted
  /-- A fault was raised: nothing executes, the fault record is valid. -/
  | faulted
deriving DecidableEq, Repr

/-- The names of `fault.cause` (60_exceptions.md R121); their 2-bit codes are `causeCode` in Machine/Lifecycle.lean. -/
inductive FaultCause where
  /-- Code 0: no fault has been raised since reset. -/
  | none
  /-- Code 1 (R122). -/
  | invalidOpcode
  /-- Code 2 (R123). -/
  | invalidRegister
  /-- Code 3: reserved, never raised (R124). -/
  | unimplementedOpcode
deriving DecidableEq, Repr

/-- The fault record (10_state.md R21). -/
structure FaultRecord where
  cause : FaultCause
  /-- `a0`, the address of the first word of the offending instruction. -/
  addr : Word
  /-- `M[a0]`, the offending first word. -/
  word : Word
  /-- For InvalidRegister the offending identifier, else 0. -/
  reg : RegField
deriving DecidableEq, Repr

/-- The state of the core (10_state.md R6). -/
structure State where
  /-- `r0` to `r15` (R7). -/
  gpr : Vector Word 16
  /-- The instruction pointer, `pc` in the pseudocode (R11). -/
  rip : Word
  /-- The auxiliary pointer (R9). -/
  rp : Word
  /-- The five flags, D V S Z C from bit 4 to bit 0 (R14). -/
  flags : BitVec 5
  /-- Memory (R22). -/
  mem : Memory
  /-- The lifecycle status (R19). -/
  status : Status
  /-- The halt result (R20). -/
  result : Word
  /-- The fault record (R21). -/
  fault : FaultRecord
deriving DecidableEq, Repr

/-- Reasons for which a step would stop outside the machine's own rules: there are none, so the type is empty. The faults
of 60_exceptions.md are states of this machine (`status = faulted` with the record of R128), reached by an ordinary next
step; memory accesses and handlers are total (20_memory.md R26, R27; 60_exceptions.md R121). Safe: nothing raises it. -/
inductive Fault where
deriving DecidableEq, Repr

/-- Reasons for which the model declines to go on. No instruction and no step raises one; the last two belong to the host
events of Machine/Lifecycle.lean. -/
inductive Refusal where
  /-- An instruction without a meaning yet; raised by `exec` only, by no arm at present. Safe. -/
  | notModelled (mnemonic : String)
  /-- The loader's `MemoryLoadError`: an image of the wrong size; the load does not happen (60_exceptions.md R126). Raised
  by `hostLoad`. Safe. -/
  | memoryLoadError
  /-- A host event in a status that does not enable it: "outside the spec" (93_implementation_defined.md I17). Raised by
  `hostLoad` and `hostSetEntry`. Safe. -/
  | hostEventNotEnabled
deriving DecidableEq, Repr

/-- The fault record after reset (10_state.md R24). -/
def FaultRecord.clear : FaultRecord := ⟨.none, 0x0000#16, 0x0000#16, 0#5⟩

/-- The machine right after reset: every value is the one 10_state.md R24 gives; memory lists nothing, so every cell reads
as 0x0000 (70_reset_and_hazards.md R133, R134). -/
def State.reset : State where
  gpr := Vector.replicate 16 0x0000#16
  rip := 0x0000#16
  rp := 0x0000#16
  flags := 0b00000#5
  mem := []
  status := .ready
  result := 0x0000#16
  fault := FaultRecord.clear

end Sys2Proof.Machine
end

