-- ==== Sys2Proof/Machine/Ops.lean ====
section
/-! DEFINITION. The named operations over memory and registers, instruction fetch, the loop's advance, and taking a fault. -/

namespace Sys2Proof.Machine

/-! ### Bytes of memory -/

/-- Read of byte number `n` of memory; a byte that is not listed holds its reset value 0x00 (70_reset_and_hazards.md R134). -/
def Memory.readByte : Memory → Nat → Byte
  | [], _ => Config.resetByte
  | (k, b) :: rest, n => if k = n then b else Memory.readByte rest n

/-- The memory without the entries for byte `n`. -/
def Memory.remove : Memory → Nat → Memory
  | [], _ => []
  | (k, b) :: rest, n => if k = n then Memory.remove rest n else (k, b) :: Memory.remove rest n

/-- The memory with an entry for byte `n` put before the first entry of a greater number. -/
def Memory.insert : Memory → Nat → Byte → Memory
  | [], n, v => [(n, v)]
  | (k, b) :: rest, n, v => if n < k then (n, v) :: (k, b) :: rest else (k, b) :: Memory.insert rest n v

/-- Write of byte number `n`; writing the reset value removes the entry, so that equal memories are equal lists. -/
def Memory.writeByte (m : Memory) (n : Nat) (v : Byte) : Memory :=
  if v = Config.resetByte then m.remove n else (m.remove n).insert n v

/-- Entries at rising numbers from `lo` on, inside the 131,072 bytes, none at the reset value. -/
def Memory.wfFrom : Nat → Memory → Bool
  | _, [] => true
  | lo, (k, b) :: rest =>
    decide (lo ≤ k) && decide (k < Config.memBytes) && decide (b ≠ Config.resetByte) && Memory.wfFrom (k + 1) rest

/-- The canonical form of memory. -/
def Memory.wf (m : Memory) : Bool := Memory.wfFrom 0 m

/-! ### Words of memory (20_memory.md R26 to R28) -/

/-- Byte number of the low byte of the cell at a Word address (20_memory.md R30). -/
def lowByteOf (addr : Word) : Nat := 2 * addr.toNat

/-- `MemRead(addr, 1)`: total, raises nothing, changes nothing (20_memory.md R26). -/
def Memory.readWord (m : Memory) (addr : Word) : Word := m.readByte (lowByteOf addr + 1) ++ m.readByte (lowByteOf addr)

/-- `MemWrite(addr, 1, v)`: total, raises nothing, changes exactly that cell (20_memory.md R27). -/
def Memory.writeWord (m : Memory) (addr v : Word) : Memory :=
  (m.writeByte (lowByteOf addr) (v.extractLsb' 0 8)).writeByte (lowByteOf addr + 1) (v.extractLsb' 8 8)

/-- The Word `M[addr]` of a state. -/
def memRead (s : State) (addr : Word) : Word := s.mem.readWord addr

/-- `M[addr] <- v` in a state. -/
def memWrite (s : State) (addr v : Word) : State := { s with mem := s.mem.writeWord addr v }

/-! ### Registers: the single accessor (10_state.md R10) -/

/-- `x[r]`. -/
def readReg (s : State) : Reg → Word
  | .gpr n => s.gpr[n]
  | .rip => s.rip
  | .rp => s.rp

/-- `x[r] <- v`: the three backing stores never alias (10_state.md R10); writing `rip` writes the slot the loop fetches
from. -/
def writeReg (s : State) (r : Reg) (v : Word) : State :=
  match r with
  | .gpr n => { s with gpr := s.gpr.set n v }
  | .rip => { s with rip := v }
  | .rp => { s with rp := v }

/-! ### Fetch (40_execution_loop.md R59) -/

/-- The Word at `a0 +w k`, where `a0` is `pc`; the address wraps modulo 2^16 (20_memory.md R32). -/
def fetchWord (s : State) (k : Nat) : Word := memRead s (s.rip + BitVec.ofNat 16 k)

/-- What the Words at `pc` decode to. All of them are read before any state changes (R59); reading an extension word that
the format does not have changes nothing (20_memory.md R26, R33), and the decoder does not look at it; log 9. -/
def decodeAt (s : State) : Decoded := decode (fetchWord s 0) (fetchWord s 1) (fetchWord s 2)

/-! ### Advance or redirect (40_execution_loop.md R62) -/

/-- `pc <- pc +w len`, with the value `pc` has after the handler: an increment of the slot, not an assignment of
`a0 +w len` (R62, R63). -/
def advance (len : Nat) (s : State) : State := { s with rip := s.rip + BitVec.ofNat 16 len }

/-- The loop's policy after the handler: nothing after a redirect, else the advance (R58, R62). -/
def advanceUnless (redirected : Bool) (len : Nat) (s : State) : State := if redirected then s else advance len s

/-! ### Taking a fault (60_exceptions.md R128), the machine's one exception entry -/

/-- Fault entry: the record is written and `status` becomes Faulted; "nothing else changes: `pc` stays `a0`" (R128). There is
no return from a fault: only the host's reset leaves Faulted (R129), which is `hostReset` in Machine/Lifecycle.lean. -/
def takeFault (cause : FaultCause) (reg : RegField) (s : State) : State :=
  { s with fault := ⟨cause, s.rip, fetchWord s 0, reg⟩, status := .faulted }

end Sys2Proof.Machine
end

