-- ==== Sys2Proof/Machine/Flags.lean ====
section
/-! DEFINITION. The flags register (10_state.md R14 to R18), the flag rule (R16), and every computation of a carry or an
overflow that the instruction rules give. Results are computed exactly and then narrowed (42_arithmetic.md R81). -/

namespace Sys2Proof.Machine

/-- The five flags (10_state.md R14). -/
inductive Flag where
  | carry
  | zero
  | sign
  | overflow
  | divideByZero
deriving DecidableEq, Repr

/-- The flag's bit in `F` (10_state.md R14). -/
def Flag.bit : Flag → Nat
  | .carry => 0
  | .zero => 1
  | .sign => 2
  | .overflow => 3
  | .divideByZero => 4

/-- The value of a flag. -/
def getFlag (s : State) (f : Flag) : Bool := s.flags.getLsbD f.bit

/-- `{F.D, F.V, F.S, F.Z, F.C}` (00_scope.md section 5). -/
def packFlags (d v s z c : Bool) : BitVec 5 :=
  BitVec.ofBool d ++ BitVec.ofBool v ++ BitVec.ofBool s ++ BitVec.ofBool z ++ BitVec.ofBool c

/-- The flag rule `SetFlags(res, c, v)`: all five flags in one assignment (10_state.md R16). -/
def setFlags (res : Word) (c v : Bool) (s : State) : State :=
  { s with flags := packFlags false v (res.getLsbD 15) (res == 0x0000#16) c }

/-- `F.D <- 1`, the other four unchanged: DIV with a zero divisor (10_state.md R17). -/
def setDivideByZero (s : State) : State := { s with flags := s.flags ||| 0b10000#5 }

/-- Write back a result and call the flag rule: the common end of the handlers that write one register (42_arithmetic.md
R81, 43_logic.md R91, 44_shift_rotate.md R97). -/
def writeResult (rd : Reg) (res : Word) (c v : Bool) (s : State) : State := setFlags res c v (writeReg s rd res)

/-- Write two results, destination first, so that a later write to the same register stands (42_arithmetic.md R88, R89,
decision D13), then call the flag rule on the first. -/
def writeResults (rd : Reg) (first : Word) (rs : Reg) (second : Word) (c v : Bool) (s : State) : State :=
  setFlags first c v (writeReg (writeReg s rd first) rs second)

/-! ### Carry and overflow -/

/-- An exact integer fits a signed Word: -32768 to 32767. -/
def fitsSigned (z : Int) : Bool := decide (-32768 ≤ z) && decide (z ≤ 32767)

/-- The exact unsigned sum of two Words and a carry-in (42_arithmetic.md R82, R83). -/
def wideSum (a b : Word) (cin : Bool) : Nat := a.toNat + b.toNat + cin.toNat

/-- Result Word of an addition: `wide[15:0]`. -/
def sumWord (a b : Word) (cin : Bool) : Word := BitVec.ofNat 16 (wideSum a b cin)

/-- Carry of an addition: `wide[16]`. -/
def sumCarry (a b : Word) (cin : Bool) : Bool := (wideSum a b cin).testBit 16

/-- Overflow of an addition: the signed sum is out of range. -/
def sumOverflow (a b : Word) (cin : Bool) : Bool := !fitsSigned (a.toInt + b.toInt + (cin.toNat : Int))

/-- Result Word of a subtraction: `(a - b) mod 2^16` (42_arithmetic.md R84). -/
def differenceWord (a b : Word) : Word := BitVec.ofInt 16 ((a.toNat : Int) - (b.toNat : Int))

/-- Carry of a subtraction is the borrow: the unsigned minuend is smaller (42_arithmetic.md R84, decision D8). -/
def borrow (a b : Word) : Bool := decide (a.toNat < b.toNat)

/-- Overflow of a subtraction: the signed difference is out of range. -/
def differenceOverflow (a b : Word) : Bool := !fitsSigned (a.toInt - b.toInt)

/-- The exact signed product (42_arithmetic.md R88). -/
def signedProduct (a b : Word) : Int := a.toInt * b.toInt

/-- The 32-bit two's-complement product `P = p mod 2^32`. -/
def product32 (a b : Word) : BitVec 32 := BitVec.ofInt 32 (signedProduct a b)

/-- `lo = P[15:0]`. -/
def productLow (a b : Word) : Word := (product32 a b).extractLsb' 0 16

/-- `hi = P[31:16]`. -/
def productHigh (a b : Word) : Word := (product32 a b).extractLsb' 16 16

/-- `ov` of MUL: the product does not fit a signed Word. -/
def productOverflow (a b : Word) : Bool := !fitsSigned (signedProduct a b)

/-- The quotient rounded toward zero, an exact integer (42_arithmetic.md R89). -/
def quotient (n d : Int) : Int := n.tdiv d

/-- The remainder `n - q * d`. -/
def remainder (n d : Int) : Int := n - quotient n d * d

/-- `ov` of DIV: "only n = -32768, d = -1". -/
def quotientOverflow (n d : Int) : Bool := decide (quotient n d = 32768)

end Sys2Proof.Machine
end

