-- ==== Sys2Proof/Machine/Arithmetic.lean ====
section
/-! DEFINITION. The handlers of the arithmetic family (42_arithmetic.md). Both operands are read before anything is written
(R90). -/

namespace Sys2Proof.Machine

/-- ADD (42_arithmetic.md R82). -/
def execAdd (rd rs : Reg) (s : State) : Host.Outcome State Fault Refusal :=
  let a := readReg s rd
  let b := readReg s rs
  .next (writeResult rd (sumWord a b false) (sumCarry a b false) (sumOverflow a b false) s)

/-- ADC (R83): the carry-in is `F.C` before the instruction. -/
def execAdc (rd rs : Reg) (s : State) : Host.Outcome State Fault Refusal :=
  let a := readReg s rd
  let b := readReg s rs
  let cin := getFlag s .carry
  .next (writeResult rd (sumWord a b cin) (sumCarry a b cin) (sumOverflow a b cin) s)

/-- CMP (R84): the flag rule on the difference, which is discarded. -/
def execCmp (ra rb : Reg) (s : State) : Host.Outcome State Fault Refusal :=
  let a := readReg s ra
  let b := readReg s rb
  .next (setFlags (differenceWord a b) (borrow a b) (differenceOverflow a b) s)

/-- INC (R85). -/
def execInc (rd : Reg) (s : State) : Host.Outcome State Fault Refusal :=
  let a := readReg s rd
  .next (writeResult rd (sumWord a 1 false) (a == 0xFFFF#16) (a == 0x7FFF#16) s)

/-- DEC (R86). -/
def execDec (rd : Reg) (s : State) : Host.Outcome State Fault Refusal :=
  let a := readReg s rd
  .next (writeResult rd (differenceWord a 1) (a == 0x0000#16) (a == 0x8000#16) s)

/-- NEG (R87). -/
def execNeg (rd : Reg) (s : State) : Host.Outcome State Fault Refusal :=
  let a := readReg s rd
  .next (writeResult rd (differenceWord 0 a) (a != 0x0000#16) (a == 0x8000#16) s)

/-- MUL (R88): the low half to `rd`, then the high half to `rs`; the flags from the low half. -/
def execMul (rd rs : Reg) (s : State) : Host.Outcome State Fault Refusal :=
  let a := readReg s rd
  let b := readReg s rs
  let ov := productOverflow a b
  .next (writeResults rd (productLow a b) rs (productHigh a b) ov ov s)

/-- DIV (R89): with a zero divisor only `F.D` is written; else the quotient to `rd`, then the remainder to `rs`, and the
flags from the quotient Word. -/
def execDiv (rd rs : Reg) (s : State) : Host.Outcome State Fault Refusal :=
  let n := (readReg s rd).toInt
  let d := (readReg s rs).toInt
  if d = 0 then .next (setDivideByZero s)
  else
    let ov := quotientOverflow n d
    .next (writeResults rd (BitVec.ofInt 16 (quotient n d)) rs (BitVec.ofInt 16 (remainder n d)) ov ov s)

end Sys2Proof.Machine
end

