-- ==== Sys2Proof/Machine/ControlFlow.lean ====
section
/-! DEFINITION. The handlers of the control-flow family (45_control_flow.md) and the step's `redirected` mark
(40_execution_loop.md R58, R62). -/

namespace Sys2Proof.Machine

/-- The condition of a conditional jump: `F.flag == want` (45_control_flow.md section 3). -/
def jumpTaken (f : Flag) (want : Bool) (s : State) : Bool := getFlag s f == want

/-- `Jcc(flag, want)`: `pc <- ext1` when the condition holds, nothing otherwise (45_control_flow.md section 3). -/
def jumpIf (f : Flag) (want : Bool) (addr : Word) (s : State) : State := if jumpTaken f want s then writeReg s .rip addr else s

/-- JMP (45_control_flow.md R106). -/
def execJmp (addr : Word) (s : State) : Host.Outcome State Fault Refusal := .next (writeReg s .rip addr)

/-- JMPR (R107). -/
def execJmpr (rs : Reg) (s : State) : Host.Outcome State Fault Refusal := .next (writeReg s .rip (readReg s rs))

/-- JZ (R108): taken iff `F.Z == 1`. -/
def execJz (addr : Word) (s : State) : Host.Outcome State Fault Refusal := .next (jumpIf .zero true addr s)

/-- JNZ (R109): taken iff `F.Z == 0`. -/
def execJnz (addr : Word) (s : State) : Host.Outcome State Fault Refusal := .next (jumpIf .zero false addr s)

/-- JS (R110): taken iff `F.S == 1`. -/
def execJs (addr : Word) (s : State) : Host.Outcome State Fault Refusal := .next (jumpIf .sign true addr s)

/-- JNS (R111): taken iff `F.S == 0`. -/
def execJns (addr : Word) (s : State) : Host.Outcome State Fault Refusal := .next (jumpIf .sign false addr s)

/-- JC (R112): taken iff `F.C == 1`. -/
def execJc (addr : Word) (s : State) : Host.Outcome State Fault Refusal := .next (jumpIf .carry true addr s)

/-- JNC (R113): taken iff `F.C == 0`. -/
def execJnc (addr : Word) (s : State) : Host.Outcome State Fault Refusal := .next (jumpIf .carry false addr s)

/-- JO (R114): taken iff `F.V == 1`. -/
def execJo (addr : Word) (s : State) : Host.Outcome State Fault Refusal := .next (jumpIf .overflow true addr s)

/-- JNO (R115): taken iff `F.V == 0`. -/
def execJno (addr : Word) (s : State) : Host.Outcome State Fault Refusal := .next (jumpIf .overflow false addr s)

/-- JDZ (R116): taken iff `F.D == 1`. -/
def execJdz (addr : Word) (s : State) : Host.Outcome State Fault Refusal := .next (jumpIf .divideByZero true addr s)

/-- JNDZ (R117): taken iff `F.D == 0`. -/
def execJndz (addr : Word) (s : State) : Host.Outcome State Fault Refusal := .next (jumpIf .divideByZero false addr s)

/-- The mark `redirected` that the handler leaves for the loop, read on the state before the handler: "set to true by JMP and
JMPR always, and by a conditional jump exactly when its condition is true" (40_execution_loop.md R62). It is a fact about the
instruction, not a comparison of `pc` before and after. -/
def redirects (i : Instr) (s : State) : Bool :=
  match i with
  | .jmp _ => true
  | .jmpr _ => true
  | .jz _ => jumpTaken .zero true s
  | .jnz _ => jumpTaken .zero false s
  | .js _ => jumpTaken .sign true s
  | .jns _ => jumpTaken .sign false s
  | .jc _ => jumpTaken .carry true s
  | .jnc _ => jumpTaken .carry false s
  | .jo _ => jumpTaken .overflow true s
  | .jno _ => jumpTaken .overflow false s
  | .jdz _ => jumpTaken .divideByZero true s
  | .jndz _ => jumpTaken .divideByZero false s
  | .mov _ _ | .ldi _ _ | .ld _ _ | .st _ _ | .ldr _ _ | .str _ _ | .sti _ _ | .xchg _ _ | .rdf _ | .wrf _ => false
  | .add _ _ | .adc _ _ | .cmp _ _ | .inc _ | .dec _ | .neg _ | .mul _ _ | .div _ _ => false
  | .and _ _ | .or _ _ | .xor _ _ | .not _ | .test _ _ => false
  | .shl _ | .shr _ | .sar _ | .rol _ | .ror _ | .rcl _ | .rcr _ => false
  | .hlt _ => false

end Sys2Proof.Machine
end

