-- ==== Sys2Proof/Machine/Operands.lean ====
section
/-! DEFINITION. The operand forms: "register ids vs. immediate Words vs. addresses" (30_encoding.md section 0). An immediate
is used as it stands (R46) and a register operand is `readReg`; what is left is where a load or a store goes. -/

namespace Sys2Proof.Machine

/-- The two addressing modes (41_data_movement.md section 3). -/
inductive MemOperand where
  /-- The extension word as it stands: LD, ST, STI. -/
  | absolute (addr : Word)
  /-- The value of a register as it stands: LDR, STR. -/
  | register (r : Reg)
deriving DecidableEq, Repr

/-- The effective address; nothing is added to it and the register is not modified (20_memory.md R32). -/
def effectiveAddress (s : State) : MemOperand → Word
  | .absolute addr => addr
  | .register r => readReg s r

/-- `x[rd] <- MemRead(address, 1)`: the address is read before the register is written (41_data_movement.md R75). -/
def load (rd : Reg) (src : MemOperand) (s : State) : State := writeReg s rd (memRead s (effectiveAddress s src))

/-- `MemWrite(address, 1, v)`. -/
def store (dst : MemOperand) (v : Word) (s : State) : State := memWrite s (effectiveAddress s dst) v

end Sys2Proof.Machine
end

