-- ==== Sys2Proof/Machine/DataMovement.lean ====
section
/-! DEFINITION. The handlers of the data-movement family (41_data_movement.md). A handler never advances `pc`
(40_execution_loop.md R61); `pc` is `a0` while it runs (10_state.md R12). -/

namespace Sys2Proof.Machine

/-- MOV (41_data_movement.md R71). -/
def execMov (rd rs : Reg) (s : State) : Host.Outcome State Fault Refusal := .next (writeReg s rd (readReg s rs))

/-- LDI (R72). -/
def execLdi (rd : Reg) (imm : Word) (s : State) : Host.Outcome State Fault Refusal := .next (writeReg s rd imm)

/-- LD (R73). -/
def execLd (rd : Reg) (addr : Word) (s : State) : Host.Outcome State Fault Refusal := .next (load rd (.absolute addr) s)

/-- ST (R74). -/
def execSt (addr : Word) (rs : Reg) (s : State) : Host.Outcome State Fault Refusal :=
  .next (store (.absolute addr) (readReg s rs) s)

/-- LDR (R75). -/
def execLdr (rd rs : Reg) (s : State) : Host.Outcome State Fault Refusal := .next (load rd (.register rs) s)

/-- STR (R76): `rd` holds the address, `rs` the data. -/
def execStr (rd rs : Reg) (s : State) : Host.Outcome State Fault Refusal := .next (store (.register rd) (readReg s rs) s)

/-- STI (R77). -/
def execSti (addr imm : Word) (s : State) : Host.Outcome State Fault Refusal := .next (store (.absolute addr) imm s)

/-- XCHG (R78): both are read before either is written. -/
def execXchg (ra rb : Reg) (s : State) : Host.Outcome State Fault Refusal :=
  .next (writeReg (writeReg s ra (readReg s rb)) rb (readReg s ra))

/-- RDF (R79): `x[rd] <- zext_16(F)`. -/
def execRdf (rd : Reg) (s : State) : Host.Outcome State Fault Refusal := .next (writeReg s rd (s.flags.setWidth 16))

/-- WRF (R80): `F <- x[rs][4:0]`; bits 15 to 5 are ignored. -/
def execWrf (rs : Reg) (s : State) : Host.Outcome State Fault Refusal :=
  .next { s with flags := (readReg s rs).extractLsb' 0 5 }

end Sys2Proof.Machine
end

