-- ==== Sys2Proof/Machine/Halt.lean ====
section
/-! DEFINITION. The handler of HLT (46_halt.md), the only instruction that writes `status` or `result` (R120). -/

namespace Sys2Proof.Machine

/-- HLT (46_halt.md R119): `result <- x[rs]; status <- Halted`. The loop still advances `pc` after it (40_execution_loop.md
R62). -/
def execHlt (rs : Reg) (s : State) : Host.Outcome State Fault Refusal :=
  .next { s with result := readReg s rs, status := .halted }

end Sys2Proof.Machine
end

