-- ==== Sys2Proof/Machine/Logic.lean ====
section
/-! DEFINITION. The handlers of the logic family (43_logic.md): all call the flag rule with `c = 0` and `v = 0` (R91). -/

namespace Sys2Proof.Machine

/-- AND (43_logic.md R92). -/
def execAnd (rd rs : Reg) (s : State) : Host.Outcome State Fault Refusal :=
  .next (writeResult rd (readReg s rd &&& readReg s rs) false false s)

/-- OR (R93). -/
def execOr (rd rs : Reg) (s : State) : Host.Outcome State Fault Refusal :=
  .next (writeResult rd (readReg s rd ||| readReg s rs) false false s)

/-- XOR (R94). -/
def execXor (rd rs : Reg) (s : State) : Host.Outcome State Fault Refusal :=
  .next (writeResult rd (readReg s rd ^^^ readReg s rs) false false s)

/-- NOT (R95): the complement of the 16 bits. -/
def execNot (rd : Reg) (s : State) : Host.Outcome State Fault Refusal :=
  .next (writeResult rd (~~~ readReg s rd) false false s)

/-- TEST (R96): the flag rule on the AND, which is discarded. -/
def execTest (ra rb : Reg) (s : State) : Host.Outcome State Fault Refusal :=
  .next (setFlags (readReg s ra &&& readReg s rb) false false s)

end Sys2Proof.Machine
end

