-- ==== Sys2Proof/Machine/ShiftRotate.lean ====
section
/-! DEFINITION. The handlers of the shift and rotate family (44_shift_rotate.md): one register in place, one bit position
(R97). Each result is the concatenation its rule writes. -/

namespace Sys2Proof.Machine

/-- SHL (44_shift_rotate.md R98): `wide = a * 2`, the carry is `wide[16]`, the overflow `a[15] ^ a[14]`. -/
def execShl (rd : Reg) (s : State) : Host.Outcome State Fault Refusal :=
  let a := readReg s rd
  let wide := a.toNat * 2
  .next (writeResult rd (BitVec.ofNat 16 wide) (wide.testBit 16) (a.getLsbD 15 ^^ a.getLsbD 14) s)

/-- SHR (R99): `{0, a[15:1]}`, the carry is `a[0]`. -/
def execShr (rd : Reg) (s : State) : Host.Outcome State Fault Refusal :=
  let a := readReg s rd
  .next (writeResult rd (0#1 ++ a.extractLsb' 1 15) (a.getLsbD 0) false s)

/-- SAR (R100): `{a[15], a[15:1]}`, the carry is `a[0]`. -/
def execSar (rd : Reg) (s : State) : Host.Outcome State Fault Refusal :=
  let a := readReg s rd
  .next (writeResult rd (BitVec.ofBool (a.getLsbD 15) ++ a.extractLsb' 1 15) (a.getLsbD 0) false s)

/-- ROL (R101): `{a[14:0], a[15]}`, the carry is cleared. -/
def execRol (rd : Reg) (s : State) : Host.Outcome State Fault Refusal :=
  let a := readReg s rd
  .next (writeResult rd (a.extractLsb' 0 15 ++ BitVec.ofBool (a.getLsbD 15)) false false s)

/-- ROR (R102): `{a[0], a[15:1]}`, the carry is cleared. -/
def execRor (rd : Reg) (s : State) : Host.Outcome State Fault Refusal :=
  let a := readReg s rd
  .next (writeResult rd (BitVec.ofBool (a.getLsbD 0) ++ a.extractLsb' 1 15) false false s)

/-- RCL (R103): `{a[14:0], cin}`, the carry is `a[15]`. -/
def execRcl (rd : Reg) (s : State) : Host.Outcome State Fault Refusal :=
  let a := readReg s rd
  .next (writeResult rd (a.extractLsb' 0 15 ++ BitVec.ofBool (getFlag s .carry)) (a.getLsbD 15) false s)

/-- RCR (R104): `{cin, a[15:1]}`, the carry is `a[0]`. -/
def execRcr (rd : Reg) (s : State) : Host.Outcome State Fault Refusal :=
  let a := readReg s rd
  .next (writeResult rd (BitVec.ofBool (getFlag s .carry) ++ a.extractLsb' 1 15) (a.getLsbD 0) false s)

end Sys2Proof.Machine
end

