-- ==== Sys2Proof/Machine/Dispatch.lean ====
section
/-! DEFINITION. Dispatch: "each assigned opcode has exactly one handler" (40_execution_loop.md R61). -/

namespace Sys2Proof.Machine

def exec (i : Instr) (s : State) : Host.Outcome State Fault Refusal :=
  match i with
  -- 41_data_movement.md
  | .mov rd rs => Sys2Proof.Machine.execMov rd rs s
  | .ldi rd imm => Sys2Proof.Machine.execLdi rd imm s
  | .ld rd addr => Sys2Proof.Machine.execLd rd addr s
  | .st addr rs => Sys2Proof.Machine.execSt addr rs s
  | .ldr rd rs => Sys2Proof.Machine.execLdr rd rs s
  | .str rd rs => Sys2Proof.Machine.execStr rd rs s
  | .sti addr imm => Sys2Proof.Machine.execSti addr imm s
  | .xchg ra rb => Sys2Proof.Machine.execXchg ra rb s
  | .rdf rd => Sys2Proof.Machine.execRdf rd s
  | .wrf rs => Sys2Proof.Machine.execWrf rs s
  -- 42_arithmetic.md
  | .add rd rs => Sys2Proof.Machine.execAdd rd rs s
  | .adc rd rs => Sys2Proof.Machine.execAdc rd rs s
  | .cmp ra rb => Sys2Proof.Machine.execCmp ra rb s
  | .inc rd => Sys2Proof.Machine.execInc rd s
  | .dec rd => Sys2Proof.Machine.execDec rd s
  | .neg rd => Sys2Proof.Machine.execNeg rd s
  | .mul rd rs => Sys2Proof.Machine.execMul rd rs s
  | .div rd rs => Sys2Proof.Machine.execDiv rd rs s
  -- 43_logic.md
  | .and rd rs => Sys2Proof.Machine.execAnd rd rs s
  | .or rd rs => Sys2Proof.Machine.execOr rd rs s
  | .xor rd rs => Sys2Proof.Machine.execXor rd rs s
  | .not rd => Sys2Proof.Machine.execNot rd s
  | .test ra rb => Sys2Proof.Machine.execTest ra rb s
  -- 44_shift_rotate.md
  | .shl rd => Sys2Proof.Machine.execShl rd s
  | .shr rd => Sys2Proof.Machine.execShr rd s
  | .sar rd => Sys2Proof.Machine.execSar rd s
  | .rol rd => Sys2Proof.Machine.execRol rd s
  | .ror rd => Sys2Proof.Machine.execRor rd s
  | .rcl rd => Sys2Proof.Machine.execRcl rd s
  | .rcr rd => Sys2Proof.Machine.execRcr rd s
  -- 45_control_flow.md
  | .jmp addr => Sys2Proof.Machine.execJmp addr s
  | .jmpr rs => Sys2Proof.Machine.execJmpr rs s
  | .jz addr => Sys2Proof.Machine.execJz addr s
  | .jnz addr => Sys2Proof.Machine.execJnz addr s
  | .js addr => Sys2Proof.Machine.execJs addr s
  | .jns addr => Sys2Proof.Machine.execJns addr s
  | .jc addr => Sys2Proof.Machine.execJc addr s
  | .jnc addr => Sys2Proof.Machine.execJnc addr s
  | .jo addr => Sys2Proof.Machine.execJo addr s
  | .jno addr => Sys2Proof.Machine.execJno addr s
  | .jdz addr => Sys2Proof.Machine.execJdz addr s
  | .jndz addr => Sys2Proof.Machine.execJndz addr s
  -- 46_halt.md
  | .hlt rs => Sys2Proof.Machine.execHlt rs s

end Sys2Proof.Machine
end

