-- ==== Sys2Proof/Machine/Step.lean ====
section
/-! DEFINITION. The step of the fetch-decode-execute loop (40_execution_loop.md R58), and the placing of an instruction where
the step fetches. -/

namespace Sys2Proof.Machine

/-- The step while Running (40_execution_loop.md R58): decode the Words at `pc`; a decode check that fails takes its fault;
else the handler runs and the loop advances unless the handler redirected. -/
def stepRunning (s : State) : Host.Outcome State Fault Refusal :=
  match decodeAt s with
  | .invalidOpcode => .next (takeFault .invalidOpcode 0#5 s)
  | .invalidRegister id => .next (takeFault .invalidRegister id s)
  | .instr i =>
    match exec i s with
    | .next t => .next (advanceUnless (redirects i s) (instrLength i) t)
    | .fault r => .fault r
    | .refused r => .refused r

/-- One step. Running: `stepRunning`. In Ready, Halted and Faulted "the core executes nothing" (10_state.md R19): the state
stays as it is, until a host event (40_execution_loop.md R56); log 3. -/
def step (s : State) : Host.Outcome State Fault Refusal :=
  match s.status with
  | .running => stepRunning s
  | .ready => .next s
  | .halted => .next s
  | .faulted => .next s

/-- `s` with the instruction whose bits are the low `nbits` of `w` stored at `pc`, as three Words (the longest instruction),
and Running, so that the next step runs it. It stands for the host's load and start (70_reset_and_hazards.md R136, R138);
log 4. -/
def State.withFetchWord (s : State) (nbits w : Nat) : State :=
  let ws := tableWords nbits w
  let s0 := memWrite s s.rip (ws.getD 0 0)
  let s1 := memWrite s0 (s.rip + 1) (ws.getD 1 0)
  let s2 := memWrite s1 (s.rip + 2) (ws.getD 2 0)
  { s2 with status := .running }

end Sys2Proof.Machine
end

