-- ==== Sys2Proof/Machine/Lifecycle.lean ====
section
/-! DEFINITION. The host boundary (70_reset_and_hazards.md R133 to R138): the events reset, load, set-entry and start, which
act on the core from outside a step, and the outputs the host reads. -/

namespace Sys2Proof.Machine

/-- Reset: legal in any status, sets every piece of state to its reset value, memory included; the only way out of Halted
and Faulted (70_reset_and_hazards.md R133, R134; 60_exceptions.md R129). -/
def hostReset (_ : State) : State := State.reset

/-- The memory that the bytes of an image give from byte number `n` on: byte `2a` is the low and byte `2a + 1` the high byte
of `M[a]` (20_memory.md R30). Bytes at the reset value are not listed. -/
def imageMemory : Nat → List Byte → Memory
  | _, [] => []
  | n, b :: rest => if b = Config.resetByte then imageMemory (n + 1) rest else (n, b) :: imageMemory (n + 1) rest

/-- The image that memory holds: its 131,072 bytes in order (70_reset_and_hazards.md R136, "read-back of every address"). -/
def memoryImage (m : Memory) : List Byte := (List.range Config.memBytes).map m.readByte

/-- load(image): all of `M` replaced by the image, or nothing at all (70_reset_and_hazards.md R136). Only in Ready (20_memory.md
R40; 93_implementation_defined.md I17); an image of any other size is the loader's MemoryLoadError and the load does not
happen (60_exceptions.md R126; I18). -/
def hostLoad (image : List Byte) (s : State) : Host.Outcome State Fault Refusal :=
  if s.status = .ready then
    if image.length = Config.memBytes then .next { s with mem := imageMemory 0 image } else .refused .memoryLoadError
  else .refused .hostEventNotEnabled

/-- set-entry(ENTRY): `pc <- ENTRY`, only in Ready (70_reset_and_hazards.md R137). -/
def hostSetEntry (entry : Word) (s : State) : Host.Outcome State Fault Refusal :=
  if s.status = .ready then .next { s with rip := entry } else .refused .hostEventNotEnabled

/-- start: Ready to Running, nothing else changes; ignored in every other status (40_execution_loop.md R57,
70_reset_and_hazards.md R138). -/
def hostStart (s : State) : State := if s.status = .ready then { s with status := .running } else s

/-- The events of the host (70_reset_and_hazards.md R135). -/
inductive HostEvent where
  | reset
  | load (image : List Byte)
  | setEntry (entry : Word)
  | start
deriving DecidableEq, Repr

/-- What a host event does (40_execution_loop.md R56: "No other transition exists"). -/
def hostEvent (e : HostEvent) (s : State) : Host.Outcome State Fault Refusal :=
  match e with
  | .reset => .next (hostReset s)
  | .load image => hostLoad image s
  | .setEntry entry => hostSetEntry entry s
  | .start => .next (hostStart s)

/-- The order a host follows: "reset, load, (set-entry), start" (70_reset_and_hazards.md R139), with `ENTRY` at its default
0x0000 unless it is given (R137). -/
def boot (image : List Byte) (s : State) (entry : Word := Config.defaultEntry) : Host.Outcome State Fault Refusal :=
  match hostLoad image (hostReset s) with
  | .next s1 =>
    match hostSetEntry entry s1 with
    | .next s2 => .next (hostStart s2)
    | .fault r => .fault r
    | .refused r => .refused r
  | .fault r => .fault r
  | .refused r => .refused r

/-! ### Outputs (70_reset_and_hazards.md R135) -/

/-- The source's `running` boolean (10_state.md R19). -/
def isRunning (s : State) : Bool := s.status == .running

/-- The numeric code of `fault.cause`, 2 bits (60_exceptions.md R121). -/
def causeCode : FaultCause → BitVec 2
  | .none => 0#2
  | .invalidOpcode => 1#2
  | .invalidRegister => 2#2
  | .unimplementedOpcode => 3#2

/-- `result`, "meaningful only after halt" (10_state.md R20): given to the host in Halted only. -/
def hostResult (s : State) : Option Word := if s.status = .halted then some s.result else none

/-- The fault record, meaningful in Faulted only (10_state.md R21). -/
def hostFault (s : State) : Option FaultRecord := if s.status = .faulted then some s.fault else none

/-- Read-only inspection of registers, flags and memory: in Ready, Halted and Faulted, with no effect on the core; none
while Running (70_reset_and_hazards.md R135, decision D32). -/
def hostInspect (s : State) : Option State := if s.status = .running then none else some s

end Sys2Proof.Machine
end

