-- ==== Sys2Proof/Machine/Assembler.lean ====
section
/-! DEFINITION. The assembler of 30_encoding.md R52 to R54 as far as it is about Words: numbers, labels, `.org`, `.word`,
the pseudo-instructions and the Words emitted. The characters of a source line are not modelled: no core ever sees
them; log 10. -/

namespace Sys2Proof.Machine

/-- The pseudo-instructions: "each is a second name for one real instruction" (30_encoding.md R54). -/
inductive Pseudo where
  | nop
  | sal (rd : Reg)
  | je (addr : Word)
  | jne (addr : Word)
  | jb (addr : Word)
  | jae (addr : Word)
deriving DecidableEq, Repr

/-- The real instruction a pseudo-instruction names (30_encoding.md R54). -/
def expandPseudo : Pseudo → Instr
  | .nop => .mov (.gpr 0) (.gpr 0)
  | .sal rd => .shl rd
  | .je addr => .jz addr
  | .jne addr => .jnz addr
  | .jb addr => .jc addr
  | .jae addr => .jnc addr

/-- A number or a label (30_encoding.md R52). -/
inductive Numeral where
  | num (v : Int)
  | label (name : String)
deriving DecidableEq, Repr

/-- One line of assembler input. `instr i ext` is the instruction `i` with its extension Words given by `ext`; the extension
Words inside `i` are placeholders. -/
inductive AsmLine where
  /-- `label:` on a line of its own. -/
  | label (name : String)
  /-- `.org a`. DESIGN CHOICE: `a` is a Word, not a label, so no range error arises here; 30_encoding.md R52 does not say what `a`
  may be; log 10. -/
  | org (addr : Word)
  /-- `.word v, v, ...`. DESIGN CHOICE: each `v` is any number in the immediates' range or any label; R52 does not say what `v` may
  be; log 10. -/
  | word (vs : List Numeral)
  | instr (i : Instr) (ext : List Numeral)
deriving DecidableEq, Repr

/-- The Word of a number: `-k` with 1 ≤ k ≤ 32768 is `0x10000 - k`; "a number above 65535 or below -32768 is an error"
(30_encoding.md R52). DESIGN CHOICE: R52 gives the range for immediates; addresses, jump targets and `.word` have the same here;
log 10. -/
def numberWord (v : Int) : Option Word := if -32768 ≤ v ∧ v ≤ 65535 then some (BitVec.ofInt 16 v) else none

/-- The Word of a numeral, given the labels. DESIGN CHOICE: of two labels of one name the first counts, a label that is not defined
gives no Word; log 10. -/
def numeralWord (labels : List (String × Word)) : Numeral → Option Word
  | .num v => numberWord v
  | .label name => labels.lookup name

/-- Where the next Word is emitted after a line that begins at `start` (30_encoding.md R52). -/
def nextAddress (start : Word) : AsmLine → Word
  | .label _ => start
  | .org addr => addr
  | .word vs => start + BitVec.ofNat 16 vs.length
  | .instr i _ => start + BitVec.ofNat 16 (instrLength i)

/-- The labels of a program: each is "the address of the next Word emitted". DESIGN CHOICE: a label directly before an `.org` is the
address before that `.org`, which does not move it, and a label with no Word after it is the address where one would be emitted;
the words of 30_encoding.md R52 do not settle either; log 10. -/
def labelTable : Word → List AsmLine → List (String × Word)
  | _, [] => []
  | start, .label name :: rest => (name, start) :: labelTable start rest
  | _, .org addr :: rest => labelTable addr rest
  | start, .word vs :: rest => labelTable (nextAddress start (.word vs)) rest
  | start, .instr i ext :: rest => labelTable (nextAddress start (.instr i ext)) rest

/-- The Words one line emits: the first word per 30_encoding.md R42 and the extension Words per R46.
DESIGN CHOICE: a wrong count of extension numerals gives no Words; log 10. -/
def lineWords (labels : List (String × Word)) : AsmLine → Option (List Word)
  | .label _ => some []
  | .org _ => some []
  | .word vs => vs.mapM (numeralWord labels)
  | .instr i ext =>
    if ext.length + 1 = instrLength i then
      (ext.mapM (numeralWord labels)).map fun words => (encode i).getD 0 0 :: words
    else none

/-- Words stored at ascending addresses, which wrap past 0xFFFF. DESIGN CHOICE: 30_encoding.md R52 does not say what a program that
emits past the last address does; log 10. -/
def writeWords (m : Memory) : Word → List Word → Memory
  | _, [] => m
  | start, w :: rest => writeWords (m.writeWord start w) (start + 1) rest

/-- Second pass: the memory that the lines give from an address on, over `m`. DESIGN CHOICE: a Word emitted to an address already
emitted to (an `.org` going back) stands over the earlier one; 30_encoding.md R52 does not say whether this is an error; log 10. -/
def emit (labels : List (String × Word)) : Memory → Word → List AsmLine → Option Memory
  | m, _, [] => some m
  | m, start, line :: rest =>
    match lineWords labels line with
    | some words => emit labels (writeWords m start words) (nextAddress start line) rest
    | none => none

/-- The memory a program assembles to, from address 0x0000 where no `.org` comes first (DESIGN CHOICE: R52 names no start;
log 10); every Word not emitted is 0x0000 (95_test_vectors.md section 10). -/
def assemble (lines : List AsmLine) : Option Memory := emit (labelTable 0x0000#16 lines) [] 0x0000#16 lines

end Sys2Proof.Machine
end

