-- ==== Sys2Proof/WellFormed.lean ====
section
/-! DEFINITION. Well-formedness. Every term of `Instr` is well formed: its register operands are an enumeration of the
18 identifiers and its other operands are whole Words, for which "any Word is a legal immediate and a legal address"
(30_encoding.md R50). What can be ill formed is a FIRST WORD, and this file says which are not, from the mask, the match
and the register fields of spec/opcode_table.json alone, independently of the decoder (which is written from
30_encoding.md R47 and the check order of 60_exceptions.md R127). -/

namespace Sys2Proof

/-- One row of the machine-readable opcode map: "the row is selected exactly when `(w & mask) == match`"
(30_encoding.md, opening), and whether its format uses `ra` and `rb` as register identifiers (R44). -/
structure TableRow where
  mnemonic : String
  mask : Word
  bits : Word
  usesRa : Bool
  usesRb : Bool
deriving DecidableEq, Repr

/-- Rows of 41_data_movement.md. -/
def dataMovementRows : List TableRow := [
  ⟨"MOV", 0xFC00#16, 0x0400#16, true, true⟩,
  ⟨"LDI", 0xFC1F#16, 0x0800#16, true, false⟩,
  ⟨"LD", 0xFC1F#16, 0x0C00#16, true, false⟩,
  ⟨"ST", 0xFC1F#16, 0x1000#16, true, false⟩,
  ⟨"LDR", 0xFC00#16, 0x1400#16, true, true⟩,
  ⟨"STR", 0xFC00#16, 0x1800#16, true, true⟩,
  ⟨"STI", 0xFFFF#16, 0x1C00#16, false, false⟩,
  ⟨"XCHG", 0xFC00#16, 0x2000#16, true, true⟩,
  ⟨"RDF", 0xFC1F#16, 0x2400#16, true, false⟩,
  ⟨"WRF", 0xFC1F#16, 0x2800#16, true, false⟩]

/-- Rows of 42_arithmetic.md. -/
def arithmeticRows : List TableRow := [
  ⟨"ADD", 0xFC00#16, 0x4000#16, true, true⟩,
  ⟨"ADC", 0xFC00#16, 0x4400#16, true, true⟩,
  ⟨"CMP", 0xFC00#16, 0x4800#16, true, true⟩,
  ⟨"INC", 0xFC1F#16, 0x4C00#16, true, false⟩,
  ⟨"DEC", 0xFC1F#16, 0x5000#16, true, false⟩,
  ⟨"NEG", 0xFC1F#16, 0x5400#16, true, false⟩,
  ⟨"MUL", 0xFC00#16, 0x5800#16, true, true⟩,
  ⟨"DIV", 0xFC00#16, 0x5C00#16, true, true⟩]

/-- Rows of 43_logic.md. -/
def logicRows : List TableRow := [
  ⟨"AND", 0xFC00#16, 0x6000#16, true, true⟩,
  ⟨"OR", 0xFC00#16, 0x6400#16, true, true⟩,
  ⟨"XOR", 0xFC00#16, 0x6800#16, true, true⟩,
  ⟨"NOT", 0xFC1F#16, 0x6C00#16, true, false⟩,
  ⟨"TEST", 0xFC00#16, 0x7000#16, true, true⟩]

/-- Rows of 44_shift_rotate.md. -/
def shiftRotateRows : List TableRow := [
  ⟨"SHL", 0xFC1F#16, 0x8000#16, true, false⟩,
  ⟨"SHR", 0xFC1F#16, 0x8400#16, true, false⟩,
  ⟨"SAR", 0xFC1F#16, 0x8800#16, true, false⟩,
  ⟨"ROL", 0xFC1F#16, 0x8C00#16, true, false⟩,
  ⟨"ROR", 0xFC1F#16, 0x9000#16, true, false⟩,
  ⟨"RCL", 0xFC1F#16, 0x9400#16, true, false⟩,
  ⟨"RCR", 0xFC1F#16, 0x9800#16, true, false⟩]

/-- Rows of 45_control_flow.md. -/
def controlFlowRows : List TableRow := [
  ⟨"JMP", 0xFFFF#16, 0xA000#16, false, false⟩,
  ⟨"JMPR", 0xFC1F#16, 0xA400#16, true, false⟩,
  ⟨"JZ", 0xFFFF#16, 0xA800#16, false, false⟩,
  ⟨"JNZ", 0xFFFF#16, 0xAC00#16, false, false⟩,
  ⟨"JS", 0xFFFF#16, 0xB000#16, false, false⟩,
  ⟨"JNS", 0xFFFF#16, 0xB400#16, false, false⟩,
  ⟨"JC", 0xFFFF#16, 0xB800#16, false, false⟩,
  ⟨"JNC", 0xFFFF#16, 0xBC00#16, false, false⟩,
  ⟨"JO", 0xFFFF#16, 0xC000#16, false, false⟩,
  ⟨"JNO", 0xFFFF#16, 0xC400#16, false, false⟩,
  ⟨"JDZ", 0xFFFF#16, 0xC800#16, false, false⟩,
  ⟨"JNDZ", 0xFFFF#16, 0xCC00#16, false, false⟩]

/-- Rows of 46_halt.md. -/
def haltRows : List TableRow := [
  ⟨"HLT", 0xFC1F#16, 0xE000#16, true, false⟩]

/-- The 43 rows of the opcode map. -/
def opcodeTable : List TableRow :=
  dataMovementRows ++ arithmeticRows ++ logicRows ++ shiftRotateRows ++ controlFlowRows ++ haltRows

/-- The row is selected by this first word: the opcode is the row's and every field its format reserves is 0
(30_encoding.md R48, R49). -/
def TableRow.selects (row : TableRow) (first : Word) : Bool := first &&& row.mask == row.bits

/-- A field the row uses as a register identifier names one of the 18 registers (30_encoding.md R45). -/
def TableRow.namesRegisters (row : TableRow) (first : Word) : Bool :=
  (!row.usesRa || decide ((first >>> 5 &&& 0x1F#16).toNat ≤ 17)) && (!row.usesRb || decide ((first &&& 0x1F#16).toNat ≤ 17))

/-- Some row is selected: the word has an assigned opcode and clear reserved fields (30_encoding.md R48, R49). -/
def selectsSomeRow (first : Word) : Bool := opcodeTable.any fun row => row.selects first

/-- A well-formed first word: a row is selected and its register fields name registers (30_encoding.md R50). -/
def wellFormedFirstWord (first : Word) : Bool :=
  opcodeTable.any fun row => row.selects first && row.namesRegisters first

end Sys2Proof
end

