-- ==== Sys2Proof/Safety.lean ====
section
/-! DEFINITION. The terms that statements about the machine use: frames, flag values, encodings, and the invariant of a
run. -/

namespace Sys2Proof.Machine

/-! ### Frames -/

/-- Every byte of memory reads as before. -/
def SameMemory (s t : State) : Prop := ∀ n : Nat, t.mem.readByte n = s.mem.readByte n

/-- Every byte of memory but the two of the cell at `addr` reads as before. -/
def SameMemoryExcept (addr : Word) (s t : State) : Prop :=
  ∀ n : Nat, n ≠ lowByteOf addr → n ≠ lowByteOf addr + 1 → t.mem.readByte n = s.mem.readByte n

/-- Every register but those listed is unchanged; `rip` is one of the 18 registers. -/
def SameRegsExcept (rs : List Reg) (s t : State) : Prop := ∀ r : Reg, r ∉ rs → readReg t r = readReg s r

/-- `status`, `result` and the fault record are unchanged. -/
def SameLifecycle (s t : State) : Prop := t.status = s.status ∧ t.result = s.result ∧ t.fault = s.fault

/-- Only the listed registers changed: flags, memory, status, result and fault record are as before. -/
def OnlyRegs (rs : List Reg) (s t : State) : Prop :=
  SameRegsExcept rs s t ∧ t.flags = s.flags ∧ SameMemory s t ∧ SameLifecycle s t

/-- Only the listed registers and the flags changed. -/
def OnlyRegsAndFlags (rs : List Reg) (s t : State) : Prop := SameRegsExcept rs s t ∧ SameMemory s t ∧ SameLifecycle s t

/-- Only the cell at `addr` changed. -/
def OnlyCell (addr : Word) (s t : State) : Prop :=
  SameRegsExcept [] s t ∧ t.flags = s.flags ∧ SameMemoryExcept addr s t ∧ SameLifecycle s t

/-! ### Flags -/

/-- The five flags have these values (10_state.md R14). -/
def FlagsAre (t : State) (c z sgn v d : Bool) : Prop :=
  getFlag t .carry = c ∧ getFlag t .zero = z ∧ getFlag t .sign = sgn ∧ getFlag t .overflow = v ∧ getFlag t .divideByZero = d

/-- The five flags are those of the flag rule for the result `res`, carry `c` and overflow `v` (10_state.md R16). -/
def FlagsOf (t : State) (res : Word) (c v : Bool) : Prop :=
  FlagsAre t c (decide (res.toNat = 0)) (decide (0x8000 ≤ res.toNat)) v false

/-- The exact integer `z` is outside -32768 .. 32767. -/
abbrev OutOfRange (z : Int) : Prop := z < -32768 ∨ 32767 < z

/-! ### Encodings: which words an instruction has, and what decoding makes of every value of its fields -/

/-- Format RR (30_encoding.md R44): the one word `op * 1024 + rd * 32 + rs`; a field above 17 is InvalidRegister, `ra` before
`rb` (60_exceptions.md R127). -/
def EncodedRR (op : Nat) (mk : Reg → Reg → Instr) : Prop :=
  (∀ a b : Reg, encode (mk a b) = [BitVec.ofNat 16 (op * 1024 + a.toField.toNat * 32 + b.toField.toNat)] ∧
    instrLength (mk a b) = 1) ∧
  ∀ (ra rb : RegField) (e1 e2 : Word),
    let w := BitVec.ofNat 16 (op * 1024 + ra.toNat * 32 + rb.toNat)
    if 17 < ra.toNat then decode w e1 e2 = .invalidRegister ra
    else if 17 < rb.toNat then decode w e1 e2 = .invalidRegister rb
    else ∃ a b : Reg, a.toField = ra ∧ b.toField = rb ∧ decode w e1 e2 = .instr (mk a b)

/-- Formats R, RI, RA (30_encoding.md R44): the word `op * 1024 + ra * 32` and the listed extension Words, of which `ext` is
what the instruction makes of `ext1`; a non-zero `rb` is InvalidOpcode, then `ra` above 17 is InvalidRegister (R127). -/
def EncodedR (op : Nat) (hasExt : Bool) (mk : Reg → Word → Instr) : Prop :=
  (∀ (a : Reg) (x : Word),
    encode (mk a x) = BitVec.ofNat 16 (op * 1024 + a.toField.toNat * 32) :: (if hasExt then [x] else []) ∧
    instrLength (mk a x) = if hasExt then 2 else 1) ∧
  ∀ (ra rb : RegField) (e1 e2 : Word),
    let w := BitVec.ofNat 16 (op * 1024 + ra.toNat * 32 + rb.toNat)
    if rb.toNat ≠ 0 then decode w e1 e2 = .invalidOpcode
    else if 17 < ra.toNat then decode w e1 e2 = .invalidRegister ra
    else ∃ a : Reg, a.toField = ra ∧ decode w e1 e2 = .instr (mk a e1)

/-- Formats A, AI (30_encoding.md R44): the word `op * 1024`, then the address Word, then for AI the immediate Word; a
non-zero register field is InvalidOpcode. -/
def EncodedA (op : Nat) (hasImm : Bool) (mk : Word → Word → Instr) : Prop :=
  (∀ x y : Word, encode (mk x y) = BitVec.ofNat 16 (op * 1024) :: x :: (if hasImm then [y] else []) ∧
    instrLength (mk x y) = if hasImm then 3 else 2) ∧
  ∀ (ra rb : RegField) (e1 e2 : Word),
    let w := BitVec.ofNat 16 (op * 1024 + ra.toNat * 32 + rb.toNat)
    if ra.toNat ≠ 0 ∨ rb.toNat ≠ 0 then decode w e1 e2 = .invalidOpcode
    else decode w e1 e2 = .instr (mk e1 e2)

/-! ### What the loop does after a handler (40_execution_loop.md R62) -/

/-- Where the step runs the instruction `i` whose handler leaves `t`, the loop then adds `len` to the `pc` that `t` has, and
changes nothing else. -/
def ThenAdvances (i : Instr) (len : Nat) (s t : State) : Prop :=
  s.status = .running → decodeAt s = .instr i → step s = .next { t with rip := t.rip + BitVec.ofNat 16 len }

/-- Where the step runs the instruction `i` whose handler leaves `t`, the loop then adds nothing: `i` redirected. -/
def ThenRedirected (i : Instr) (s t : State) : Prop := s.status = .running → decodeAt s = .instr i → step s = .next t

/-- The step takes a fault: exactly the record and `status` are written; `pc` stays at the offending instruction (60_exceptions.md
R128). -/
def TakesFault (code : BitVec 2) (reg : RegField) (s : State) : Prop :=
  ∃ t, step s = .next t ∧ t.status = .faulted ∧
    causeCode t.fault.cause = code ∧ t.fault.addr = s.rip ∧ t.fault.word = memRead s s.rip ∧ t.fault.reg = reg ∧
    SameRegsExcept [] s t ∧ t.flags = s.flags ∧ SameMemory s t ∧ t.result = s.result

/-! ### Shapes that several instructions share -/

/-- A handler that writes one register with `res` and calls the flag rule on it with carry `c` and overflow `v`; then the loop
advances by one Word. -/
def WritesResult (i : Instr) (s : State) (rd : Reg) (res : Word) (c v : Bool) : Prop :=
  ∃ t, exec i s = .next t ∧ readReg t rd = res ∧ FlagsOf t res c v ∧ OnlyRegsAndFlags [rd] s t ∧ ThenAdvances i 1 s t

/-- A conditional jump of opcode `op` on one flag (45_control_flow.md section 3): taken exactly when the flag is `want`; taken,
`rip` is the target and the loop adds nothing; not taken, the handler changes nothing and the loop adds 2. -/
def JumpsWhen (op : Nat) (mk : Word → Instr) (f : Flag) (want : Bool) : Prop :=
  EncodedA op false (fun x _ => mk x) ∧
  ∀ (addr : Word) (s : State),
    ∃ t, exec (mk addr) s = .next t ∧ OnlyRegs [.rip] s t ∧
      if getFlag s f = want then readReg t .rip = addr ∧ ThenRedirected (mk addr) s t
      else readReg t .rip = readReg s .rip ∧ ThenAdvances (mk addr) 2 s t

/-- The registers an instruction names as a destination, as the operand columns of its rule say (41_data_movement.md to
46_halt.md); the jumps' destination is `rip`. -/
def destinations : Instr → List Reg
  | .mov rd _ | .ldi rd _ | .ld rd _ | .ldr rd _ | .rdf rd => [rd]
  | .st _ _ | .str _ _ | .sti _ _ | .wrf _ | .cmp _ _ | .test _ _ | .hlt _ => []
  | .xchg ra rb => [ra, rb]
  | .add rd _ | .adc rd _ | .inc rd | .dec rd | .neg rd => [rd]
  | .mul rd rs | .div rd rs => [rd, rs]
  | .and rd _ | .or rd _ | .xor rd _ | .not rd => [rd]
  | .shl rd | .shr rd | .sar rd | .rol rd | .ror rd | .rcl rd | .rcr rd => [rd]
  | .jmp _ | .jmpr _ | .jz _ | .jnz _ | .js _ | .jns _ | .jc _ | .jnc _ | .jo _ | .jno _ | .jdz _ | .jndz _ => [.rip]

/-- The instructions that leave `F` unchanged (10_state.md R15). -/
def leavesFlags : Instr → Bool
  | .mov _ _ | .ldi _ _ | .ld _ _ | .st _ _ | .ldr _ _ | .str _ _ | .sti _ _ | .xchg _ _ | .rdf _ => true
  | .jmp _ | .jmpr _ | .jz _ | .jnz _ | .js _ | .jns _ | .jc _ | .jnc _ | .jo _ | .jno _ | .jdz _ | .jndz _ | .hlt _ => true
  | .wrf _ | .add _ _ | .adc _ _ | .cmp _ _ | .inc _ | .dec _ | .neg _ | .mul _ _ | .div _ _ => false
  | .and _ _ | .or _ _ | .xor _ _ | .not _ | .test _ _ => false
  | .shl _ | .shr _ | .sar _ | .rol _ | .ror _ | .rcl _ | .rcr _ => false

/-- The cell an instruction stores to and the Word it stores, where it stores (20_memory.md R41). -/
def storedCell (s : State) : Instr → Option (Word × Word)
  | .st addr rs => some (effectiveAddress s (.absolute addr), readReg s rs)
  | .str rd rs => some (effectiveAddress s (.register rd), readReg s rs)
  | .sti addr imm => some (effectiveAddress s (.absolute addr), imm)
  | .mov _ _ | .ldi _ _ | .ld _ _ | .ldr _ _ | .xchg _ _ | .rdf _ | .wrf _ => none
  | .add _ _ | .adc _ _ | .cmp _ _ | .inc _ | .dec _ | .neg _ | .mul _ _ | .div _ _ => none
  | .and _ _ | .or _ _ | .xor _ _ | .not _ | .test _ _ => none
  | .shl _ | .shr _ | .sar _ | .rol _ | .ror _ | .rcl _ | .rcr _ => none
  | .jmp _ | .jmpr _ | .jz _ | .jnz _ | .js _ | .jns _ | .jc _ | .jnc _ | .jo _ | .jno _ | .jdz _ | .jndz _ | .hlt _ => none

/-! ### Runs -/

/-- The invariant of a run. Memory is canonical (the form is the model's: DESIGN CHOICE, log 1);
`result` is zero until HLT (93_implementation_defined.md I12); the fault
record is clear unless Faulted (10_state.md R21), and in Faulted it diagnoses the instruction that `pc` still points at: its
address, its first word, and the very cause and identifier that decoding it gives (60_exceptions.md R122, R123, R128). In
particular the cause UnimplementedOpcode never occurs (R124). -/
def Invariant (s : State) : Prop :=
  s.mem.wf = true ∧
  (s.status ≠ .halted → s.result = 0x0000#16) ∧
  (s.status ≠ .faulted → s.fault = FaultRecord.clear) ∧
  (s.status = .faulted →
    s.fault.addr = s.rip ∧ s.fault.word = memRead s s.rip ∧
    ((s.fault.cause = .invalidOpcode ∧ s.fault.reg = 0#5 ∧ decodeAt s = .invalidOpcode) ∨
     (s.fault.cause = .invalidRegister ∧ 17 < s.fault.reg.toNat ∧ decodeAt s = .invalidRegister s.fault.reg)))

/-- A run has ended (40_execution_loop.md R65). -/
def Ended (s : State) : Prop := s.status = .halted ∨ s.status = .faulted

/-- A safe step: it answers a next state that is not Faulted. -/
def SafeStep (s : State) : Prop := ∃ t, step s = .next t ∧ t.status ≠ .faulted

/-- States reached from reset by steps and host events (40_execution_loop.md R56). -/
inductive Reachable : State → Prop where
  | reset : Reachable State.reset
  | step {s t : State} : Reachable s → step s = .next t → Reachable t
  | event {s t : State} (e : HostEvent) : Reachable s → hostEvent e s = .next t → Reachable t

/-! ### The opcodes by format, as 30_encoding.md R44 and R51 list them -/

/-- Unassigned opcodes (30_encoding.md R48). -/
def unassignedOps : List Nat :=
  [0x00, 0x0B, 0x0C, 0x0D, 0x0E, 0x0F, 0x1D, 0x1E, 0x1F, 0x27, 0x34, 0x35, 0x36, 0x37, 0x39, 0x3A, 0x3B, 0x3C, 0x3D, 0x3E, 0x3F]

/-- Opcodes of format RR: MOV LDR STR XCHG ADD ADC CMP MUL DIV AND OR XOR TEST (30_encoding.md R44, R47). -/
def opsRR : List Nat := [0x01, 0x05, 0x06, 0x08, 0x10, 0x11, 0x12, 0x16, 0x17, 0x18, 0x19, 0x1A, 0x1C]

/-- Opcodes of formats A and AI: JMP, the ten conditional jumps, STI (30_encoding.md R44, R47). -/
def opsA : List Nat := [0x07, 0x28, 0x2A, 0x2B, 0x2C, 0x2D, 0x2E, 0x2F, 0x30, 0x31, 0x32, 0x33]

end Sys2Proof.Machine
end

