-- ==== Sys2Proof/Certificates/Slice0/Obligations.lean ====
section
/-! DEFINITION. The statements for the provers. Each formalises the rule of spec/ its docstring names. Frames, flag values and
encodings are said in the terms of Safety.lean; `rip` is one of the 18 registers, so a frame over registers covers it. -/

open Sys2Proof Sys2Proof.Machine

/-! ### Encoding (30_encoding.md) -/

/-- R55: encoding and then decoding returns the same instruction, whatever Words follow it. -/
def Obligations.DecodeOfEncodeIsTheInstruction : Prop :=
  ∀ (i : Instr) (tail : List Word), decodeWords (encode i ++ tail) = .instr i

/-- R55: decoding and then encoding returns the same Words; with the converse, decoding is injective (R49). -/
def Obligations.EncodeOfDecodeIsTheWords : Prop :=
  ∀ (first e1 e2 : Word) (i : Instr), decode first e1 e2 = .instr i → encode i = [first, e1, e2].take (instrLength i)

/-- R50: every first word is exactly one of a valid instruction (a row of the opcode table is selected and its register
fields name registers), InvalidOpcode (no row is selected), InvalidRegister (a row is selected, a field is 18 to 31). The
extension Words are never checked. -/
def Obligations.DecodeAgreesWithOpcodeTable : Prop :=
  ∀ first e1 e2 : Word,
    ((∃ i, decode first e1 e2 = .instr i) ↔ wellFormedFirstWord first = true) ∧
    (decode first e1 e2 = .invalidOpcode ↔ selectsSomeRow first = false) ∧
    ((∃ id, decode first e1 e2 = .invalidRegister id) ↔ selectsSomeRow first = true ∧ wellFormedFirstWord first = false)

/-- R60 and R127: the decode checks in their fixed order: unassigned opcode; a non-zero reserved field; `ra` above 17; `rb`
above 17. -/
def Obligations.DecodeChecksInFixedOrder : Prop :=
  ∀ first e1 e2 : Word,
    let op := first.toNat / 1024
    let ra := first.toNat / 32 % 32
    let rb := first.toNat % 32
    if op ∈ unassignedOps then decode first e1 e2 = .invalidOpcode
    else if op ∈ opsA ∧ ra ≠ 0 ∨ op ∉ opsRR ∧ rb ≠ 0 then decode first e1 e2 = .invalidOpcode
    else if op ∉ opsA ∧ 17 < ra then decode first e1 e2 = .invalidRegister (BitVec.ofNat 5 ra)
    else if op ∈ opsRR ∧ 17 < rb then decode first e1 e2 = .invalidRegister (BitVec.ofNat 5 rb)
    else ∃ i, decode first e1 e2 = .instr i

/-- R51: the length of an instruction is found from `op` alone, by the rule's list; a faulting first word has no length: the
step leaves `pc` at it. -/
def Obligations.LengthFollowsFromOpcodeAlone : Prop :=
  (∀ (first e1 e2 : Word) (i : Instr), decode first e1 e2 = .instr i →
    let op := first.toNat / 1024
    instrLength i =
      if op = 0x07 then 3 else if op ∈ [0x02, 0x03, 0x04, 0x28] ∨ (0x2A ≤ op ∧ op ≤ 0x33) then 2 else 1) ∧
  ∀ s : State, s.status = .running → (∀ i, decodeAt s ≠ .instr i) → ∃ t, step s = .next t ∧ t.rip = s.rip

/-- The examples of R55, decoded. -/
def Obligations.ExampleWordsDecode : Prop :=
  decode 0x4001 0 0 = .instr (.add (.gpr 0) (.gpr 1)) ∧
  decode 0x0A20 0x0011 0 = .instr (.ldi .rp 0x0011) ∧
  decode 0x1000 0x0100 0 = .instr (.st 0x0100 (.gpr 0)) ∧
  decode 0xC800 0x0008 0 = .instr (.jdz 0x0008) ∧
  decode 0x1C00 0x9000 0x7777 = .instr (.sti 0x9000 0x7777) ∧
  decode 0xE040 0 0 = .instr (.hlt (.gpr 2))

/-- R54: the pseudo-instructions with their first words; NOP changes no register, flag or memory, and `pc` advances by 1. -/
def Obligations.PseudoInstructionsNameRealOnes : Prop :=
  encode (expandPseudo .nop) = [0x0400] ∧
  (∀ rd : Reg, encode (expandPseudo (.sal rd)) = [BitVec.ofNat 16 (0x8000 + rd.toField.toNat * 32)]) ∧
  (∀ a : Word, encode (expandPseudo (.je a)) = [0xA800, a] ∧ encode (expandPseudo (.jne a)) = [0xAC00, a] ∧
    encode (expandPseudo (.jb a)) = [0xB800, a] ∧ encode (expandPseudo (.jae a)) = [0xBC00, a]) ∧
  (∀ rd : Reg, expandPseudo (.sal rd) = .shl rd) ∧
  ∀ s : State, exec (expandPseudo .nop) s = .next s ∧ ThenAdvances (expandPseudo .nop) 1 s s

/-! ### The loop (40_execution_loop.md) -/

/-- R58, R61, R62: while Running, when the Words at `pc` decode to an instruction, its handler answers a next state, and the
step is that state with, unless the handler redirected, `pc` advanced by the instruction's length from the value `pc` has after
the handler. -/
def Obligations.StepRunsTheDecodedInstruction : Prop :=
  ∀ (s : State) (i : Instr), s.status = .running → decodeAt s = .instr i →
    ∃ t, exec i s = .next t ∧
      step s = .next (if redirects i s then t else { t with rip := t.rip + BitVec.ofNat 16 (instrLength i) })

/-- R127 and R128 with R60, R122 and R123: while Running, the first check on the first word that fails, in this order, makes
the step take its fault, with exactly the fault record and `status` written; where none fails the step raises no fault. -/
def Obligations.StepTakesTheFirstFailingCheck : Prop :=
  ∀ s : State, s.status = .running →
    let first := memRead s s.rip
    let op := first.toNat / 1024
    let ra := first.toNat / 32 % 32
    let rb := first.toNat % 32
    if op ∈ unassignedOps then TakesFault 1 0 s
    else if op ∈ opsA ∧ ra ≠ 0 ∨ op ∉ opsRR ∧ rb ≠ 0 then TakesFault 1 0 s
    else if op ∉ opsA ∧ 17 < ra then TakesFault 2 (BitVec.ofNat 5 ra) s
    else if op ∈ opsRR ∧ 17 < rb then TakesFault 2 (BitVec.ofNat 5 rb) s
    else ∃ t, step s = .next t ∧ t.status ≠ .faulted ∧ t.fault = s.fault

/-- R56, R19: in Ready, Halted and Faulted the core executes nothing: a step changes nothing. That such a step is a next state
rather than no step at all is the model's reading (log entry 3). -/
def Obligations.NothingExecutesOutsideRunning : Prop :=
  ∀ s : State, s.status = .ready ∨ s.status = .halted ∨ s.status = .faulted → step s = .next s

/-- Every handler is total and no fault raised while Running is a stop of the machine (R121, R128): every step answers a next
state, and a step that finds a valid instruction does not end in Faulted. R121 and R128 speak of Running only: that a step in
Ready, Halted or Faulted answers a next state is the model's choice (DESIGN CHOICE, log entry 3), and that a fault is a next state
rather than a stop is the model's form of R128 (log entry 7). -/
def Obligations.EveryStepAnswersANextState : Prop :=
  (∀ s : State, ∃ t, step s = .next t) ∧
  ∀ (s : State) (i : Instr), s.status = .running → decodeAt s = .instr i → SafeStep s

/-- The invariant of a run (canonical memory, `result` zero until HLT, the fault record clear until a fault and then true of
the instruction at `pc`; R21, R124, R128, I12) is kept by every step from every state that has it. The canonical form of memory is the model's own (DESIGN
CHOICE, log entry 1); so is the idle step outside Running (log entry 3). -/
def Obligations.StepKeepsTheInvariant : Prop :=
  ∀ s t : State, Invariant s → step s = .next t → Invariant t

/-- The host's events keep the invariant too, so that every reachable state has it (R56). The canonical form of memory in it is the
model's own (DESIGN CHOICE, log entry 1); so is the idle step outside Running (log entry 3). -/
def Obligations.ReachableStatesHaveTheInvariant : Prop := ∀ s : State, Reachable s → Invariant s

/-- Reset has the invariant. R24 gives the values; that memory with nothing listed is a canonical memory rests on the model's own form
of memory (DESIGN CHOICE, log entry 1). -/
def Obligations.ResetHasTheInvariant : Prop := Invariant State.reset

/-- R62 and R105: a taken jump continues exactly at its target, a jump not taken exactly past its two Words; JMP and JMPR are
always taken. -/
def Obligations.JumpsContinueExactlyAtTheirTarget : Prop :=
  ∀ s : State, s.status = .running →
    (∀ a, decodeAt s = .instr (.jmp a) → ∃ t, step s = .next t ∧ t.rip = a) ∧
    (∀ r, decodeAt s = .instr (.jmpr r) → ∃ t, step s = .next t ∧ t.rip = readReg s r) ∧
    ∀ (mk : Word → Instr) (f : Flag) (want : Bool),
      (mk, f, want) ∈ [(Instr.jz, Flag.zero, true), (Instr.jnz, Flag.zero, false), (Instr.js, Flag.sign, true),
        (Instr.jns, Flag.sign, false), (Instr.jc, Flag.carry, true), (Instr.jnc, Flag.carry, false),
        (Instr.jo, Flag.overflow, true), (Instr.jno, Flag.overflow, false), (Instr.jdz, Flag.divideByZero, true),
        (Instr.jndz, Flag.divideByZero, false)] →
      ∀ a, decodeAt s = .instr (mk a) →
        ∃ t, step s = .next t ∧ t.rip = (if getFlag s f = want then a else s.rip + 2) ∧ t.flags = s.flags

/-- R62, R63, R11: an instruction that is not a jump and does not name `rip` as a destination leaves `pc` exactly past
itself; one that does name it as its destination continues at the written value plus its length. -/
def Obligations.NonJumpsAdvanceByTheirLength : Prop :=
  ∀ (s u : State) (i : Instr), s.status = .running → decodeAt s = .instr i → exec i s = .next u →
    ¬ (0x28 ≤ (opcodeOf i).toNat ∧ (opcodeOf i).toNat ≤ 0x33) →
    ∃ t, step s = .next t ∧ t.rip = readReg u .rip + BitVec.ofNat 16 (instrLength i) ∧
      (Reg.rip ∉ destinations i → t.rip = s.rip + BitVec.ofNat 16 (instrLength i))

/-- R38: the next fetch sees a store, at every one of the Words it may read, and sees every other cell as it was. The storing
instruction itself was decoded from the Words before its store (R59). -/
def Obligations.NextFetchSeesTheStore : Prop :=
  ∀ (s t : State) (i : Instr) (addr v : Word), s.status = .running → decodeAt s = .instr i →
    storedCell s i = some (addr, v) → step s = .next t →
    ∀ k : Nat, fetchWord t k = if t.rip + BitVec.ofNat 16 k = addr then v else memRead s (t.rip + BitVec.ofNat 16 k)

/-! ### Rules about every instruction -/

/-- R10: every handler changes no register but the destinations its rule names. -/
def Obligations.HandlersWriteOnlyTheirDestinations : Prop :=
  ∀ (i : Instr) (s t : State), exec i s = .next t → ∀ r : Reg, r ∉ destinations i → readReg t r = readReg s r

/-- R41, R27: a handler writes the one cell its row of the access table names, with the Word its rule names, and no other
byte; a handler whose row names none writes no byte. -/
def Obligations.HandlersWriteOnlyTheirCell : Prop :=
  ∀ (i : Instr) (s t : State), exec i s = .next t →
    match storedCell s i with
    | some (addr, v) => memRead t addr = v ∧ SameMemoryExcept addr s t
    | none => SameMemory s t

/-- R15, second half: every instruction that the rule lists as leaving `F` unchanged does, and a fault does. -/
def Obligations.OtherInstructionsLeaveTheFlags : Prop :=
  (∀ (i : Instr) (s t : State), leavesFlags i = true → exec i s = .next t → t.flags = s.flags) ∧
  ∀ s t : State, s.status = .running → (∀ i, decodeAt s ≠ .instr i) → step s = .next t → t.flags = s.flags

/-- R17: a step sets `F.D` from 0 to 1 only by a DIV with a zero divisor or by a WRF whose register has bit 4 set.
That a step outside Running sets none is the model's idle step (DESIGN CHOICE, log entry 3). -/
def Obligations.DivideByZeroFlagHasTwoSources : Prop :=
  ∀ s t : State, step s = .next t → getFlag s .divideByZero = false → getFlag t .divideByZero = true →
    s.status = .running ∧
    ((∃ rd rs, decodeAt s = .instr (.div rd rs) ∧ readReg s rs = 0) ∨
     (∃ rs, decodeAt s = .instr (.wrf rs) ∧ (readReg s rs).getLsbD 4 = true))

/-- R120, R64, R56: HLT is the only instruction that writes `status` or `result`, and a run leaves Running only by HLT, to
Halted, or by a decode fault, to Faulted. -/
def Obligations.OnlyHaltAndFaultsEndARun : Prop :=
  (∀ (i : Instr) (s t : State), exec i s = .next t → (∀ rs, i ≠ .hlt rs) → t.status = s.status ∧ t.result = s.result) ∧
  ∀ s t : State, s.status = .running → step s = .next t → t.status ≠ .running →
    (t.status = .halted ∧ ∃ rs, decodeAt s = .instr (.hlt rs) ∧ t.result = readReg s rs ∧ t.rip = s.rip + 1) ∨
    (t.status = .faulted ∧ ∀ i, decodeAt s ≠ .instr i)

/-- R56 with R129 and R138: `status` changes only by the transitions of the rule's table: by a HLT, by a decode fault, by reset,
and by start in Ready. So Halted and Faulted are left only by reset. That there is a step outside Running, and that it keeps the
status, is the model's choice (log entry 3). -/
def Obligations.StatusChangesOnlyByTheListedTransitions : Prop :=
  ∀ s t : State,
    (step s = .next t → t.status ≠ s.status → s.status = .running ∧
      ((t.status = .halted ∧ ∃ rs, decodeAt s = .instr (.hlt rs)) ∨ (t.status = .faulted ∧ ∀ i, decodeAt s ≠ .instr i))) ∧
    ∀ e : HostEvent, hostEvent e s = .next t → t.status ≠ s.status →
      (e = .reset ∧ t = State.reset) ∨ (e = .start ∧ s.status = .ready ∧ t.status = .running)

/-! ### Data movement (41_data_movement.md) -/

/-- R71. -/
def Obligations.MovCopiesARegister : Prop :=
  EncodedRR 0x01 .mov ∧
  ∀ (rd rs : Reg) (s : State), ∃ t, exec (.mov rd rs) s = .next t ∧ readReg t rd = readReg s rs ∧ OnlyRegs [rd] s t ∧
    ThenAdvances (.mov rd rs) 1 s t

/-- R72. -/
def Obligations.LdiLoadsTheImmediate : Prop :=
  EncodedR 0x02 true .ldi ∧
  ∀ (rd : Reg) (imm : Word) (s : State), ∃ t, exec (.ldi rd imm) s = .next t ∧ readReg t rd = imm ∧ OnlyRegs [rd] s t ∧
    ThenAdvances (.ldi rd imm) 2 s t

/-- R73. -/
def Obligations.LdLoadsFromItsAddress : Prop :=
  EncodedR 0x03 true .ld ∧
  ∀ (rd : Reg) (addr : Word) (s : State),
    ∃ t, exec (.ld rd addr) s = .next t ∧ readReg t rd = memRead s addr ∧ OnlyRegs [rd] s t ∧
      ThenAdvances (.ld rd addr) 2 s t

/-- R74: the address stored to is the extension Word as it stands. -/
def Obligations.StStoresToItsAddress : Prop :=
  EncodedR 0x04 true (fun rs addr => .st addr rs) ∧
  ∀ (addr : Word) (rs : Reg) (s : State), ∃ t, exec (.st addr rs) s = .next t ∧ ThenAdvances (.st addr rs) 2 s t ∧
    effectiveAddress s (.absolute addr) = addr ∧
    ∀ a, effectiveAddress s (.absolute addr) = a → memRead t a = readReg s rs ∧ OnlyCell a s t

/-- R75: the address is read before the destination is written, and its register is not modified otherwise. -/
def Obligations.LdrLoadsThroughARegister : Prop :=
  EncodedRR 0x05 .ldr ∧
  ∀ (rd rs : Reg) (s : State),
    ∃ t, exec (.ldr rd rs) s = .next t ∧ readReg t rd = memRead s (readReg s rs) ∧ OnlyRegs [rd] s t ∧
      ThenAdvances (.ldr rd rs) 1 s t

/-- R76: the address stored to is the content of the first register. -/
def Obligations.StrStoresThroughARegister : Prop :=
  EncodedRR 0x06 .str ∧
  ∀ (rd rs : Reg) (s : State), ∃ t, exec (.str rd rs) s = .next t ∧ ThenAdvances (.str rd rs) 1 s t ∧
    effectiveAddress s (.register rd) = readReg s rd ∧
    ∀ a, effectiveAddress s (.register rd) = a → memRead t a = readReg s rs ∧ OnlyCell a s t

/-- R77. -/
def Obligations.StiStoresTheImmediate : Prop :=
  EncodedA 0x07 true .sti ∧
  ∀ (addr imm : Word) (s : State), ∃ t, exec (.sti addr imm) s = .next t ∧ ThenAdvances (.sti addr imm) 3 s t ∧
    effectiveAddress s (.absolute addr) = addr ∧
    ∀ a, effectiveAddress s (.absolute addr) = a → memRead t a = imm ∧ OnlyCell a s t

/-- R78. -/
def Obligations.XchgExchangesTwoRegisters : Prop :=
  EncodedRR 0x08 .xchg ∧
  ∀ (ra rb : Reg) (s : State), ∃ t, exec (.xchg ra rb) s = .next t ∧
    readReg t ra = readReg s rb ∧ readReg t rb = readReg s ra ∧ OnlyRegs [ra, rb] s t ∧ ThenAdvances (.xchg ra rb) 1 s t

/-- R79: bits 4 to 0 are the flags, bits 15 to 5 are 0 whatever they were. -/
def Obligations.RdfReadsTheFlags : Prop :=
  EncodedR 0x09 false (fun rd _ => .rdf rd) ∧
  ∀ (rd : Reg) (s : State), ∃ t, exec (.rdf rd) s = .next t ∧
    (∀ f : Flag, (readReg t rd).getLsbD f.bit = getFlag s f) ∧ (∀ k, 5 ≤ k → (readReg t rd).getLsbD k = false) ∧
    OnlyRegs [rd] s t ∧ ThenAdvances (.rdf rd) 1 s t

/-- R80: all five flags from bits 4 to 0 of the register; its other bits are ignored. -/
def Obligations.WrfWritesTheFlags : Prop :=
  EncodedR 0x0A false (fun rs _ => .wrf rs) ∧
  ∀ (rs : Reg) (s : State), ∃ t, exec (.wrf rs) s = .next t ∧
    (∀ f : Flag, getFlag t f = (readReg s rs).getLsbD f.bit) ∧ OnlyRegsAndFlags [] s t ∧ ThenAdvances (.wrf rs) 1 s t

/-! ### Arithmetic (42_arithmetic.md) -/

/-- R82. -/
def Obligations.AddWritesSumAndFlags : Prop :=
  EncodedRR 0x10 .add ∧
  ∀ (rd rs : Reg) (s : State),
    let a := readReg s rd
    let b := readReg s rs
    WritesResult (.add rd rs) s rd (a + b) (decide (0xFFFF < a.toNat + b.toNat)) (decide (OutOfRange (a.toInt + b.toInt)))

/-- R83: the carry-in is `F.C` before the instruction. -/
def Obligations.AdcAddsTheCarry : Prop :=
  EncodedRR 0x11 .adc ∧
  ∀ (rd rs : Reg) (s : State),
    let cin : Nat := if getFlag s .carry = true then 1 else 0
    let a := readReg s rd
    let b := readReg s rs
    WritesResult (.adc rd rs) s rd (BitVec.ofNat 16 (a.toNat + b.toNat + cin))
      (decide (0xFFFF < a.toNat + b.toNat + cin)) (decide (OutOfRange (a.toInt + b.toInt + cin)))

/-- R84: flags only. -/
def Obligations.CmpSetsFlagsOfTheDifference : Prop :=
  EncodedRR 0x12 .cmp ∧
  ∀ (ra rb : Reg) (s : State),
    let a := readReg s ra
    let b := readReg s rb
    ∃ t, exec (.cmp ra rb) s = .next t ∧ OnlyRegsAndFlags [] s t ∧ ThenAdvances (.cmp ra rb) 1 s t ∧
      FlagsOf t (a - b) (decide (a.toNat < b.toNat)) (decide (OutOfRange (a.toInt - b.toInt)))

/-- R84, corner cases: after CMP, Z means equal, C means unsigned less, S different from V means signed less. -/
def Obligations.CmpOrdersItsOperands : Prop :=
  ∀ (ra rb : Reg) (s t : State), exec (.cmp ra rb) s = .next t →
    (getFlag t .zero = true ↔ readReg s ra = readReg s rb) ∧
    (getFlag t .carry = true ↔ (readReg s ra).toNat < (readReg s rb).toNat) ∧
    (getFlag t .sign ≠ getFlag t .overflow ↔ (readReg s ra).toInt < (readReg s rb).toInt)

/-- R85. -/
def Obligations.IncAddsOne : Prop :=
  EncodedR 0x13 false (fun rd _ => .inc rd) ∧
  ∀ (rd : Reg) (s : State),
    let a := readReg s rd
    WritesResult (.inc rd) s rd (a + 1) (decide (a.toNat = 0xFFFF)) (decide (a.toNat = 0x7FFF))

/-- R86. -/
def Obligations.DecSubtractsOne : Prop :=
  EncodedR 0x14 false (fun rd _ => .dec rd) ∧
  ∀ (rd : Reg) (s : State),
    let a := readReg s rd
    WritesResult (.dec rd) s rd (a - 1) (decide (a.toNat = 0)) (decide (a.toNat = 0x8000))

/-- R87. -/
def Obligations.NegNegates : Prop :=
  EncodedR 0x15 false (fun rd _ => .neg rd) ∧
  ∀ (rd : Reg) (s : State),
    let a := readReg s rd
    WritesResult (.neg rd) s rd (-a) (decide (a.toNat ≠ 0)) (decide (a.toNat = 0x8000))

/-- R88: the 32-bit product in two halves, low to the first register, then high to the second, which stands where both are
one register; flags from the low half. -/
def Obligations.MulWritesTheDoubleWidthProduct : Prop :=
  EncodedRR 0x16 .mul ∧
  ∀ (rd rs : Reg) (s : State),
    let p : Int := (readReg s rd).toInt * (readReg s rs).toInt
    ∃ (t : State) (lo hi : Word), exec (.mul rd rs) s = .next t ∧ ThenAdvances (.mul rd rs) 1 s t ∧
      (hi ++ lo).toInt = p ∧ readReg t rs = hi ∧ (rd ≠ rs → readReg t rd = lo) ∧
      FlagsOf t lo (decide (OutOfRange p)) (decide (OutOfRange p)) ∧ OnlyRegsAndFlags [rd, rs] s t

/-- R89: with a zero divisor only `F.D` is written; otherwise quotient toward zero and remainder with the dividend's sign,
the remainder written second, flags from the quotient Word. -/
def Obligations.DivWritesQuotientAndRemainder : Prop :=
  EncodedRR 0x17 .div ∧
  ∀ (rd rs : Reg) (s : State),
    let n : Int := (readReg s rd).toInt
    let d : Int := (readReg s rs).toInt
    ∃ t, exec (.div rd rs) s = .next t ∧ ThenAdvances (.div rd rs) 1 s t ∧
      if d = 0 then
        getFlag t .divideByZero = true ∧ (∀ f, f ≠ .divideByZero → getFlag t f = getFlag s f) ∧ OnlyRegsAndFlags [] s t
      else
        ∃ q r : Int, n = q * d + r ∧ |r| < |d| ∧ (0 ≤ n → 0 ≤ r) ∧ (n ≤ 0 → r ≤ 0) ∧
          readReg t rs = BitVec.ofInt 16 r ∧ (rd ≠ rs → readReg t rd = BitVec.ofInt 16 q) ∧
          FlagsOf t (BitVec.ofInt 16 q) (decide (q = 32768)) (decide (q = 32768)) ∧ OnlyRegsAndFlags [rd, rs] s t

/-! ### Logic (43_logic.md) -/

/-- R92, R93, R94: each bit of the result from the same bit of the operands; C, V and D cleared. -/
def Obligations.AndOrXorCombineBitByBit : Prop :=
  EncodedRR 0x18 .and ∧ EncodedRR 0x19 .or ∧ EncodedRR 0x1A .xor ∧
  ∀ (rd rs : Reg) (s : State),
    (∃ res : Word, (∀ k, res.getLsbD k = ((readReg s rd).getLsbD k && (readReg s rs).getLsbD k)) ∧
      WritesResult (.and rd rs) s rd res false false) ∧
    (∃ res : Word, (∀ k, res.getLsbD k = ((readReg s rd).getLsbD k || (readReg s rs).getLsbD k)) ∧
      WritesResult (.or rd rs) s rd res false false) ∧
    (∃ res : Word, (∀ k, res.getLsbD k = ((readReg s rd).getLsbD k ^^ (readReg s rs).getLsbD k)) ∧
      WritesResult (.xor rd rs) s rd res false false)

/-- R95: the complement of the 16 bits. -/
def Obligations.NotComplements : Prop :=
  EncodedR 0x1B false (fun rd _ => .not rd) ∧
  ∀ (rd : Reg) (s : State), ∃ res : Word, res.toNat = 0xFFFF - (readReg s rd).toNat ∧ WritesResult (.not rd) s rd res false false

/-- R96: the flags of the AND, and no register written. -/
def Obligations.TestSetsFlagsOfTheAnd : Prop :=
  EncodedRR 0x1C .test ∧
  ∀ (ra rb : Reg) (s : State),
    ∃ (t : State) (res : Word), exec (.test ra rb) s = .next t ∧ ThenAdvances (.test ra rb) 1 s t ∧
      (∀ k, res.getLsbD k = ((readReg s ra).getLsbD k && (readReg s rb).getLsbD k)) ∧
      FlagsOf t res false false ∧ OnlyRegsAndFlags [] s t

/-! ### Shifts and rotates (44_shift_rotate.md) -/

/-- R98: doubling modulo 2^16; C is the old bit 15; V is set exactly when the doubled signed value is out of range, which is
`a[15] ^ a[14]`. -/
def Obligations.ShlDoubles : Prop :=
  EncodedR 0x20 false (fun rd _ => .shl rd) ∧
  ∀ (rd : Reg) (s : State),
    let a := readReg s rd
    ∃ res : Word, res.toNat = a.toNat * 2 % 65536 ∧
      (a.getLsbD 15 ^^ a.getLsbD 14) = decide (OutOfRange (a.toInt * 2)) ∧
      WritesResult (.shl rd) s rd res (a.getLsbD 15) (a.getLsbD 15 ^^ a.getLsbD 14)

/-- R98, corner case: "SHL gives the same register result as `ADD rd, rd` and the same flags". -/
def Obligations.ShlIsAdditionToItself : Prop := ∀ (rd : Reg) (s : State), exec (.shl rd) s = exec (.add rd rd) s

/-- R99 and R100: the unsigned, respectively the signed value divided by 2 and rounded down; C is the old bit 0. -/
def Obligations.ShrAndSarHalve : Prop :=
  EncodedR 0x21 false (fun rd _ => .shr rd) ∧ EncodedR 0x22 false (fun rd _ => .sar rd) ∧
  ∀ (rd : Reg) (s : State),
    let a := readReg s rd
    (∃ res : Word, res.toNat = a.toNat / 2 ∧ WritesResult (.shr rd) s rd res (a.getLsbD 0) false) ∧
    (∃ res : Word, res.toInt = Int.fdiv a.toInt 2 ∧ res.getLsbD 15 = a.getLsbD 15 ∧
      WritesResult (.sar rd) s rd res (a.getLsbD 0) false)

/-- R101 and R102: the 16 bits rotated by one; C, V and D cleared. -/
def Obligations.RolAndRorRotateSixteenBits : Prop :=
  EncodedR 0x23 false (fun rd _ => .rol rd) ∧ EncodedR 0x24 false (fun rd _ => .ror rd) ∧
  ∀ (rd : Reg) (s : State),
    let a := readReg s rd
    (∃ res : Word, res.getLsbD 0 = a.getLsbD 15 ∧ (∀ k, k < 15 → res.getLsbD (k + 1) = a.getLsbD k) ∧
      WritesResult (.rol rd) s rd res false false) ∧
    (∃ res : Word, res.getLsbD 15 = a.getLsbD 0 ∧ (∀ k, k < 15 → res.getLsbD k = a.getLsbD (k + 1)) ∧
      WritesResult (.ror rd) s rd res false false)

/-- R103 and R104: the 17 bits of the register and `F.C` rotated by one. -/
def Obligations.RclAndRcrRotateThroughCarry : Prop :=
  EncodedR 0x25 false (fun rd _ => .rcl rd) ∧ EncodedR 0x26 false (fun rd _ => .rcr rd) ∧
  ∀ (rd : Reg) (s : State),
    let a := readReg s rd
    (∃ res : Word, res.getLsbD 0 = getFlag s .carry ∧ (∀ k, k < 15 → res.getLsbD (k + 1) = a.getLsbD k) ∧
      WritesResult (.rcl rd) s rd res (a.getLsbD 15) false) ∧
    (∃ res : Word, res.getLsbD 15 = getFlag s .carry ∧ (∀ k, k < 15 → res.getLsbD k = a.getLsbD (k + 1)) ∧
      WritesResult (.rcr rd) s rd res (a.getLsbD 0) false)

/-- R102 and R104, corner cases: ROR undoes ROL on the registers, RCR undoes RCL on the registers and `F.C`. -/
def Obligations.RightRotatesUndoLeftRotates : Prop :=
  ∀ (rd : Reg) (s t : State),
    (exec (.rol rd) s = .next t → ∃ u, exec (.ror rd) t = .next u ∧ ∀ r, readReg u r = readReg s r) ∧
    (exec (.rcl rd) s = .next t →
      ∃ u, exec (.rcr rd) t = .next u ∧ (∀ r, readReg u r = readReg s r) ∧ getFlag u .carry = getFlag s .carry)

/-! ### Control flow and halt (45_control_flow.md, 46_halt.md) -/

/-- R106. -/
def Obligations.JmpJumpsToItsAddress : Prop :=
  EncodedA 0x28 false (fun x _ => .jmp x) ∧
  ∀ (addr : Word) (s : State),
    ∃ t, exec (.jmp addr) s = .next t ∧ readReg t .rip = addr ∧ OnlyRegs [.rip] s t ∧ ThenRedirected (.jmp addr) s t

/-- R107. -/
def Obligations.JmprJumpsThroughARegister : Prop :=
  EncodedR 0x29 false (fun rs _ => .jmpr rs) ∧
  ∀ (rs : Reg) (s : State),
    ∃ t, exec (.jmpr rs) s = .next t ∧ readReg t .rip = readReg s rs ∧ OnlyRegs [.rip] s t ∧ ThenRedirected (.jmpr rs) s t

/-- R108 to R117: the ten conditional jumps, each on its flag and polarity. -/
def Obligations.ConditionalJumpsTestOneFlag : Prop :=
  JumpsWhen 0x2A .jz .zero true ∧ JumpsWhen 0x2B .jnz .zero false ∧
  JumpsWhen 0x2C .js .sign true ∧ JumpsWhen 0x2D .jns .sign false ∧
  JumpsWhen 0x2E .jc .carry true ∧ JumpsWhen 0x2F .jnc .carry false ∧
  JumpsWhen 0x30 .jo .overflow true ∧ JumpsWhen 0x31 .jno .overflow false ∧
  JumpsWhen 0x32 .jdz .divideByZero true ∧ JumpsWhen 0x33 .jndz .divideByZero false

/-- R119: the handler captures the register and ends the run; it does not redirect, so the loop leaves `pc` past the HLT. -/
def Obligations.HltCapturesTheResult : Prop :=
  EncodedR 0x38 false (fun rs _ => .hlt rs) ∧
  ∀ (rs : Reg) (s : State),
    ∃ t, exec (.hlt rs) s = .next t ∧ t.status = .halted ∧ t.result = readReg s rs ∧ t.fault = s.fault ∧
      SameRegsExcept [] s t ∧ t.flags = s.flags ∧ SameMemory s t ∧ ThenAdvances (.hlt rs) 1 s t

/-! ### Reset and the host (70_reset_and_hazards.md) -/

/-- R24: every piece of state after reset, from any state; and between reset and start, in every Ready state, each host event
that is neither (a load or a set-entry) overwrites memory and `pc` at most. -/
def Obligations.ResetGivesEveryStatedValue : Prop :=
  (∀ (e : HostEvent) (s t : State), s.status = .ready → e ≠ .reset → e ≠ .start → hostEvent e s = .next t →
    t = { s with mem := t.mem, rip := t.rip }) ∧
  ∀ s : State, hostReset s = State.reset ∧
    (∀ r : Reg, readReg (hostReset s) r = 0) ∧ (∀ f : Flag, getFlag (hostReset s) f = false) ∧
    (∀ a : Word, memRead (hostReset s) a = 0) ∧ (hostReset s).status = .ready ∧ (hostReset s).result = 0 ∧
    causeCode (hostReset s).fault.cause = 0 ∧ (hostReset s).fault.addr = 0 ∧ (hostReset s).fault.word = 0 ∧
    (hostReset s).fault.reg = 0

/-- R136: in Ready, an image of exactly 131,072 bytes replaces memory and reads back byte for byte and, low byte first, Word
for Word, and nothing else changes; an image of any other size fails with MemoryLoadError, with no next state. No load happens
outside Ready. -/
def Obligations.LoadReplacesMemoryOrNothing : Prop :=
  ∀ (s : State) (image : List Byte),
    (s.status = .ready →
      if image.length ≠ 131072 then hostLoad image s = .refused .memoryLoadError
      else ∃ t, hostLoad image s = .next t ∧ memoryImage t.mem = image ∧
        (∀ a : Word, memRead t a = image.getD (2 * a.toNat + 1) 0 ++ image.getD (2 * a.toNat) 0) ∧
        SameRegsExcept [] s t ∧ t.flags = s.flags ∧ SameLifecycle s t) ∧
    ∀ t, hostLoad image s = .next t → s.status = .ready

/-- R138, and R137 as far as set-entry goes: set-entry writes `pc` and nothing else, and happens in Ready only; start turns
Ready into Running, changes nothing else, and is ignored in every other status. -/
def Obligations.EntryAndStartActOnlyInReady : Prop :=
  ∀ (s : State) (entry : Word),
    (s.status = .ready → ∃ t, hostSetEntry entry s = .next t ∧ t.rip = entry ∧ OnlyRegs [.rip] s t) ∧
    (∀ t, hostSetEntry entry s = .next t → s.status = .ready) ∧
    (s.status = .ready → (hostStart s).status = .running ∧ SameRegsExcept [] s (hostStart s) ∧
      (hostStart s).flags = s.flags ∧ SameMemory s (hostStart s) ∧ (hostStart s).result = s.result ∧
      (hostStart s).fault = s.fault) ∧
    (s.status ≠ .ready → hostStart s = s)

/-- R139: after reset, load, set-entry and start, from whatever state: `pc` is `ENTRY`, the other registers, the flags, the
result and the fault record are zero, memory is the image, and the core is Running. -/
def Obligations.BootReachesTheFirstFetch : Prop :=
  ∀ (s : State) (image : List Byte) (entry : Word), image.length = 131072 →
    ∃ t, boot image s entry = .next t ∧ t.status = .running ∧ t.rip = entry ∧
      (∀ r : Reg, r ≠ .rip → readReg t r = 0) ∧ (∀ f : Flag, getFlag t f = false) ∧
      (∀ n : Nat, t.mem.readByte n = image.getD n 0) ∧ t.result = 0 ∧ t.fault = FaultRecord.clear

/-- R134: memory after reset is zero, not unknown; a run started without a load executes `M[0] = 0x0000` and faults with
InvalidOpcode at address 0. -/
def Obligations.StartWithoutLoadFaultsAtZero : Prop :=
  (∀ a : Word, memRead State.reset a = 0) ∧
  ∃ t, step (hostStart State.reset) = .next t ∧ t.status = .faulted ∧ causeCode t.fault.cause = 1 ∧
    t.fault.addr = 0x0000 ∧ t.fault.word = 0x0000 ∧ t.fault.reg = 0 ∧ t.rip = 0x0000
end

