-- ==== Sys2Proof/Laws/Decode.lean ====
section
/-! SUPPORT. The laws of the fields of a first word and of register identifiers (30_encoding.md R42, 10_state.md R8). -/

namespace Sys2Proof

/-! ### Fields of a first word -/

/-- A concatenation as a number. -/
theorem toNat_append_eq {n m : Nat} (x : BitVec n) (y : BitVec m) : (x ++ y).toNat = x.toNat * 2 ^ m + y.toNat := by
  rw [BitVec.toNat_append, ← Nat.shiftLeft_add_eq_or_of_lt y.isLt, Nat.shiftLeft_eq]

theorem firstWord_toNat (op : BitVec 6) (ra rb : RegField) :
    (firstWord op ra rb).toNat = op.toNat * 1024 + ra.toNat * 32 + rb.toNat := by
  have h : (firstWord op ra rb).toNat = (op ++ ra ++ rb).toNat := rfl
  rw [h, toNat_append_eq, toNat_append_eq]
  omega

theorem opField_toNat (w : Word) : (opField w).toNat = w.toNat / 1024 := by
  have := w.isLt
  simp only [opField, BitVec.extractLsb'_toNat, Nat.shiftRight_eq_div_pow]
  omega

theorem raField_toNat (w : Word) : (raField w).toNat = w.toNat / 32 % 32 := by
  simp only [raField, BitVec.extractLsb'_toNat, Nat.shiftRight_eq_div_pow]

theorem rbField_toNat (w : Word) : (rbField w).toNat = w.toNat % 32 := by
  simp only [rbField, BitVec.extractLsb'_toNat, Nat.shiftRight_eq_div_pow]
  omega

@[simp] theorem opField_firstWord (op : BitVec 6) (ra rb : RegField) : opField (firstWord op ra rb) = op := by
  apply BitVec.eq_of_toNat_eq
  rw [opField_toNat, firstWord_toNat]
  have := ra.isLt
  have := rb.isLt
  omega

@[simp] theorem raField_firstWord (op : BitVec 6) (ra rb : RegField) : raField (firstWord op ra rb) = ra := by
  apply BitVec.eq_of_toNat_eq
  rw [raField_toNat, firstWord_toNat]
  have := ra.isLt
  have := rb.isLt
  omega

@[simp] theorem rbField_firstWord (op : BitVec 6) (ra rb : RegField) : rbField (firstWord op ra rb) = rb := by
  apply BitVec.eq_of_toNat_eq
  rw [rbField_toNat, firstWord_toNat]
  have := rb.isLt
  omega

/-- A first word is its three fields. -/
theorem firstWord_fields (w : Word) : firstWord (opField w) (raField w) (rbField w) = w := by
  apply BitVec.eq_of_toNat_eq
  rw [firstWord_toNat, opField_toNat, raField_toNat, rbField_toNat]
  omega

/-- The first word as the number `op * 1024 + ra * 32 + rb` (30_encoding.md R42). -/
theorem firstWord_eq_ofNat (op : BitVec 6) (ra rb : RegField) :
    firstWord op ra rb = BitVec.ofNat 16 (op.toNat * 1024 + ra.toNat * 32 + rb.toNat) := by
  rw [← firstWord_toNat, BitVec.ofNat_toNat, BitVec.setWidth_eq]

/-! ### Register identifiers -/

@[simp] theorem Reg.ofField_toField (r : Reg) : Reg.ofField r.toField = some r := by
  cases r with
  | gpr n => revert n; decide
  | rip => rfl
  | rp => rfl

theorem Reg.toField_le (r : Reg) : r.toField.toNat ≤ 17 := by
  cases r with
  | gpr n => revert n; decide
  | rip => decide
  | rp => decide

theorem Reg.toField_of_ofField {id : RegField} {r : Reg} (h : Reg.ofField id = some r) : r.toField = id := by
  revert h r; revert id; decide

/-- Exactly the identifiers 18 to 31 name no register (10_state.md R8). -/
theorem Reg.ofField_eq_none_iff (id : RegField) : Reg.ofField id = none ↔ 17 < id.toNat := by
  revert id; decide

theorem Reg.toField_inj {r q : Reg} (h : r.toField = q.toField) : r = q := by
  have := Reg.ofField_toField r
  rw [h, Reg.ofField_toField] at this
  exact (Option.some.inj this).symm

/-! ### What the formats decode to -/

theorem decode_firstWord (op : BitVec 6) (ra rb : RegField) (e1 e2 : Word) :
    decode (firstWord op ra rb) e1 e2 = decodeFields op ra rb e1 e2 := by simp [decode]

@[simp] theorem decodeRR_toField (mk : Reg → Reg → Instr) (a b : Reg) :
    decodeRR mk a.toField b.toField = .instr (mk a b) := by simp [decodeRR]

@[simp] theorem decodeR_toField (mk : Reg → Instr) (a : Reg) : decodeR mk a.toField 0#5 = .instr (mk a) := by
  simp [decodeR]

@[simp] theorem decodeA_zero (i : Instr) : decodeA i 0#5 0#5 = .instr i := by simp [decodeA]

/-- What `decodeRR` can answer, in the order of 60_exceptions.md R127. -/
theorem decodeRR_cases (mk : Reg → Reg → Instr) (ra rb : RegField) :
    (17 < ra.toNat ∧ decodeRR mk ra rb = .invalidRegister ra) ∨
    (¬ 17 < ra.toNat ∧ 17 < rb.toNat ∧ decodeRR mk ra rb = .invalidRegister rb) ∨
    (¬ 17 < ra.toNat ∧ ¬ 17 < rb.toNat ∧
      ∃ a b, a.toField = ra ∧ b.toField = rb ∧ decodeRR mk ra rb = .instr (mk a b)) := by
  rcases ha : Reg.ofField ra with _ | a
  · exact .inl ⟨(Reg.ofField_eq_none_iff ra).mp ha, by simp [decodeRR, ha]⟩
  · have ha' : ¬ 17 < ra.toNat := by rw [← Reg.ofField_eq_none_iff, ha]; simp
    rcases hb : Reg.ofField rb with _ | b
    · exact .inr (.inl ⟨ha', (Reg.ofField_eq_none_iff rb).mp hb, by simp [decodeRR, ha, hb]⟩)
    · have hb' : ¬ 17 < rb.toNat := by rw [← Reg.ofField_eq_none_iff, hb]; simp
      exact .inr (.inr ⟨ha', hb', a, b, Reg.toField_of_ofField ha, Reg.toField_of_ofField hb, by simp [decodeRR, ha, hb]⟩)

/-- What `decodeR` can answer, in the order of 60_exceptions.md R127. -/
theorem decodeR_cases (mk : Reg → Instr) (ra rb : RegField) :
    (rb.toNat ≠ 0 ∧ decodeR mk ra rb = .invalidOpcode) ∨
    (rb = 0#5 ∧ 17 < ra.toNat ∧ decodeR mk ra rb = .invalidRegister ra) ∨
    (rb = 0#5 ∧ ¬ 17 < ra.toNat ∧ ∃ a, a.toField = ra ∧ decodeR mk ra rb = .instr (mk a)) := by
  by_cases hb : rb = 0#5
  · rcases ha : Reg.ofField ra with _ | a
    · exact .inr (.inl ⟨hb, (Reg.ofField_eq_none_iff ra).mp ha, by simp [decodeR, ha, hb]⟩)
    · have ha' : ¬ 17 < ra.toNat := by rw [← Reg.ofField_eq_none_iff, ha]; simp
      exact .inr (.inr ⟨hb, ha', a, Reg.toField_of_ofField ha, by simp [decodeR, ha, hb]⟩)
  · refine .inl ⟨fun h => hb (BitVec.eq_of_toNat_eq (by simpa using h)), by simp [decodeR, hb]⟩

end Sys2Proof
end

