-- ==== Sys2Proof/Laws/State.lean ====
section
/-! SUPPORT. The small lemmas of the state: one per field per update, true by rfl or by the three backing stores, and the
read-after-write laws of registers and flags. -/

namespace Sys2Proof.Machine

/-! ### Fields after `writeReg` -/

@[simp] theorem writeReg_flags (s : State) (r : Reg) (v : Word) : (writeReg s r v).flags = s.flags := by cases r <;> rfl
@[simp] theorem writeReg_mem (s : State) (r : Reg) (v : Word) : (writeReg s r v).mem = s.mem := by cases r <;> rfl
@[simp] theorem writeReg_status (s : State) (r : Reg) (v : Word) : (writeReg s r v).status = s.status := by cases r <;> rfl
@[simp] theorem writeReg_result (s : State) (r : Reg) (v : Word) : (writeReg s r v).result = s.result := by cases r <;> rfl
@[simp] theorem writeReg_fault (s : State) (r : Reg) (v : Word) : (writeReg s r v).fault = s.fault := by cases r <;> rfl

/-- What a register reads as after a write: the stores never alias (10_state.md R10). -/
theorem readReg_writeReg (s : State) (r q : Reg) (v : Word) :
    readReg (writeReg s r v) q = if q = r then v else readReg s q := by
  cases r <;> cases q <;> simp [readReg, writeReg]
  rename_i m n
  by_cases h : n = m
  · subst h; simp
  · have h' : m.val ≠ n.val := fun e => h (Fin.ext e.symm)
    simp [h, Vector.getElem_set_ne _ _ h']

@[simp] theorem readReg_writeReg_self (s : State) (r : Reg) (v : Word) : readReg (writeReg s r v) r = v := by
  simp [readReg_writeReg]

theorem readReg_writeReg_of_ne (s : State) {r q : Reg} (v : Word) (h : q ≠ r) :
    readReg (writeReg s r v) q = readReg s q := by simp [readReg_writeReg, h]

/-- Writing back what a register holds changes nothing. -/
theorem writeReg_readReg (s : State) (r : Reg) : writeReg s r (readReg s r) = s := by
  cases r <;> simp [readReg, writeReg]

/-! ### Fields after `setFlags` and `setDivideByZero` -/

@[simp] theorem setFlags_mem (res : Word) (c v : Bool) (s : State) : (setFlags res c v s).mem = s.mem := rfl
@[simp] theorem setFlags_status (res : Word) (c v : Bool) (s : State) : (setFlags res c v s).status = s.status := rfl
@[simp] theorem setFlags_result (res : Word) (c v : Bool) (s : State) : (setFlags res c v s).result = s.result := rfl
@[simp] theorem setFlags_fault (res : Word) (c v : Bool) (s : State) : (setFlags res c v s).fault = s.fault := rfl
@[simp] theorem readReg_setFlags (res : Word) (c v : Bool) (s : State) (r : Reg) :
    readReg (setFlags res c v s) r = readReg s r := by cases r <;> rfl

@[simp] theorem setDivideByZero_mem (s : State) : (setDivideByZero s).mem = s.mem := rfl
@[simp] theorem setDivideByZero_status (s : State) : (setDivideByZero s).status = s.status := rfl
@[simp] theorem setDivideByZero_result (s : State) : (setDivideByZero s).result = s.result := rfl
@[simp] theorem setDivideByZero_fault (s : State) : (setDivideByZero s).fault = s.fault := rfl
@[simp] theorem readReg_setDivideByZero (s : State) (r : Reg) : readReg (setDivideByZero s) r = readReg s r := by
  cases r <;> rfl

/-! ### Fields after `memWrite` -/

@[simp] theorem memWrite_mem (s : State) (a v : Word) : (memWrite s a v).mem = s.mem.writeWord a v := rfl
@[simp] theorem memWrite_rip (s : State) (a v : Word) : (memWrite s a v).rip = s.rip := rfl
@[simp] theorem memWrite_flags (s : State) (a v : Word) : (memWrite s a v).flags = s.flags := rfl
@[simp] theorem memWrite_status (s : State) (a v : Word) : (memWrite s a v).status = s.status := rfl
@[simp] theorem memWrite_result (s : State) (a v : Word) : (memWrite s a v).result = s.result := rfl
@[simp] theorem memWrite_fault (s : State) (a v : Word) : (memWrite s a v).fault = s.fault := rfl
@[simp] theorem readReg_memWrite (s : State) (a v : Word) (r : Reg) : readReg (memWrite s a v) r = readReg s r := by
  cases r <;> rfl

/-! ### Fields after `advance` and `takeFault` -/

@[simp] theorem advance_rip (n : Nat) (s : State) : (advance n s).rip = s.rip + BitVec.ofNat 16 n := rfl
@[simp] theorem advance_flags (n : Nat) (s : State) : (advance n s).flags = s.flags := rfl
@[simp] theorem advance_mem (n : Nat) (s : State) : (advance n s).mem = s.mem := rfl
@[simp] theorem advance_status (n : Nat) (s : State) : (advance n s).status = s.status := rfl
@[simp] theorem advance_result (n : Nat) (s : State) : (advance n s).result = s.result := rfl
@[simp] theorem advance_fault (n : Nat) (s : State) : (advance n s).fault = s.fault := rfl
theorem readReg_advance (n : Nat) (s : State) {r : Reg} (h : r ≠ .rip) : readReg (advance n s) r = readReg s r := by
  cases r <;> first | rfl | exact absurd rfl h

@[simp] theorem takeFault_rip (c : FaultCause) (g : RegField) (s : State) : (takeFault c g s).rip = s.rip := rfl
@[simp] theorem takeFault_flags (c : FaultCause) (g : RegField) (s : State) : (takeFault c g s).flags = s.flags := rfl
@[simp] theorem takeFault_mem (c : FaultCause) (g : RegField) (s : State) : (takeFault c g s).mem = s.mem := rfl
@[simp] theorem takeFault_status (c : FaultCause) (g : RegField) (s : State) : (takeFault c g s).status = .faulted := rfl
@[simp] theorem takeFault_result (c : FaultCause) (g : RegField) (s : State) : (takeFault c g s).result = s.result := rfl
@[simp] theorem takeFault_fault (c : FaultCause) (g : RegField) (s : State) :
    (takeFault c g s).fault = ⟨c, s.rip, fetchWord s 0, g⟩ := rfl
@[simp] theorem readReg_takeFault (c : FaultCause) (g : RegField) (s : State) (r : Reg) :
    readReg (takeFault c g s) r = readReg s r := by cases r <;> rfl

/-- What the advance policy does, field by field but `rip` (40_execution_loop.md R62). -/
@[simp] theorem advanceUnless_flags (b : Bool) (n : Nat) (s : State) : (advanceUnless b n s).flags = s.flags := by
  cases b <;> rfl
@[simp] theorem advanceUnless_mem (b : Bool) (n : Nat) (s : State) : (advanceUnless b n s).mem = s.mem := by cases b <;> rfl
@[simp] theorem advanceUnless_status (b : Bool) (n : Nat) (s : State) : (advanceUnless b n s).status = s.status := by
  cases b <;> rfl
@[simp] theorem advanceUnless_result (b : Bool) (n : Nat) (s : State) : (advanceUnless b n s).result = s.result := by
  cases b <;> rfl
@[simp] theorem advanceUnless_fault (b : Bool) (n : Nat) (s : State) : (advanceUnless b n s).fault = s.fault := by
  cases b <;> rfl
@[simp] theorem advanceUnless_rip (b : Bool) (n : Nat) (s : State) :
    (advanceUnless b n s).rip = if b then s.rip else s.rip + BitVec.ofNat 16 n := by cases b <;> rfl

/-! ### Flags -/

@[simp] theorem getFlag_writeReg (s : State) (r : Reg) (v : Word) (f : Flag) :
    getFlag (writeReg s r v) f = getFlag s f := by simp [getFlag]

/-- Reading one flag of a packed flags register. -/
theorem packFlags_getLsbD (d v s z c : Bool) (f : Flag) :
    (packFlags d v s z c).getLsbD f.bit =
      match f with | .carry => c | .zero => z | .sign => s | .overflow => v | .divideByZero => d := by
  cases d <;> cases v <;> cases s <;> cases z <;> cases c <;> cases f <;> rfl

/-- What the flag rule leaves in each flag (10_state.md R16). -/
theorem getFlag_setFlags (res : Word) (c v : Bool) (s : State) (f : Flag) :
    getFlag (setFlags res c v s) f =
      match f with
      | .carry => c | .zero => res == 0x0000#16 | .sign => res.getLsbD 15 | .overflow => v | .divideByZero => false := by
  simp only [getFlag, setFlags, packFlags_getLsbD]

/-- DIV by zero sets `F.D` and keeps the other four (10_state.md R17). -/
theorem getFlag_setDivideByZero (s : State) (f : Flag) :
    getFlag (setDivideByZero s) f = (decide (f = .divideByZero) || getFlag s f) := by
  cases f <;> simp [getFlag, setDivideByZero, Flag.bit]

/-- The flags register is its five flags. -/
theorem flags_ext {s t : State} (h : ∀ f, getFlag t f = getFlag s f) : t.flags = s.flags := by
  apply BitVec.eq_of_getLsbD_eq
  intro i hi
  have h5 : i = 0 ∨ i = 1 ∨ i = 2 ∨ i = 3 ∨ i = 4 := by omega
  rcases h5 with rfl | rfl | rfl | rfl | rfl
  · exact h .carry
  · exact h .zero
  · exact h .sign
  · exact h .overflow
  · exact h .divideByZero

/-! ### The shared ends of handlers -/

@[simp] theorem writeResult_mem (r : Reg) (x : Word) (c v : Bool) (s : State) : (writeResult r x c v s).mem = s.mem := by
  simp [writeResult]
@[simp] theorem writeResult_status (r : Reg) (x : Word) (c v : Bool) (s : State) :
    (writeResult r x c v s).status = s.status := by simp [writeResult]
@[simp] theorem writeResult_result (r : Reg) (x : Word) (c v : Bool) (s : State) :
    (writeResult r x c v s).result = s.result := by simp [writeResult]
@[simp] theorem writeResult_fault (r : Reg) (x : Word) (c v : Bool) (s : State) :
    (writeResult r x c v s).fault = s.fault := by simp [writeResult]
@[simp] theorem readReg_writeResult (r q : Reg) (x : Word) (c v : Bool) (s : State) :
    readReg (writeResult r x c v s) q = if q = r then x else readReg s q := by
  simp [writeResult, readReg_writeReg]

@[simp] theorem writeResults_mem (r : Reg) (x : Word) (q : Reg) (y : Word) (c v : Bool) (s : State) :
    (writeResults r x q y c v s).mem = s.mem := by simp [writeResults]
@[simp] theorem writeResults_status (r : Reg) (x : Word) (q : Reg) (y : Word) (c v : Bool) (s : State) :
    (writeResults r x q y c v s).status = s.status := by simp [writeResults]
@[simp] theorem writeResults_result (r : Reg) (x : Word) (q : Reg) (y : Word) (c v : Bool) (s : State) :
    (writeResults r x q y c v s).result = s.result := by simp [writeResults]
@[simp] theorem writeResults_fault (r : Reg) (x : Word) (q : Reg) (y : Word) (c v : Bool) (s : State) :
    (writeResults r x q y c v s).fault = s.fault := by simp [writeResults]
/-- The second write stands where both go to one register (42_arithmetic.md R88, R89). -/
@[simp] theorem readReg_writeResults (r : Reg) (x : Word) (q : Reg) (y : Word) (c v : Bool) (s : State) (p : Reg) :
    readReg (writeResults r x q y c v s) p = if p = q then y else if p = r then x else readReg s p := by
  simp [writeResults, readReg_writeReg]

/-! ### `jumpIf` changes `rip` at most -/

@[simp] theorem jumpIf_flags (f : Flag) (w : Bool) (a : Word) (s : State) : (jumpIf f w a s).flags = s.flags := by
  simp only [jumpIf]; split <;> simp
@[simp] theorem jumpIf_mem (f : Flag) (w : Bool) (a : Word) (s : State) : (jumpIf f w a s).mem = s.mem := by
  simp only [jumpIf]; split <;> simp
@[simp] theorem jumpIf_status (f : Flag) (w : Bool) (a : Word) (s : State) : (jumpIf f w a s).status = s.status := by
  simp only [jumpIf]; split <;> simp
@[simp] theorem jumpIf_result (f : Flag) (w : Bool) (a : Word) (s : State) : (jumpIf f w a s).result = s.result := by
  simp only [jumpIf]; split <;> simp
@[simp] theorem jumpIf_fault (f : Flag) (w : Bool) (a : Word) (s : State) : (jumpIf f w a s).fault = s.fault := by
  simp only [jumpIf]; split <;> simp
theorem readReg_jumpIf (f : Flag) (w : Bool) (a : Word) (s : State) (r : Reg) :
    readReg (jumpIf f w a s) r = if r = .rip ∧ jumpTaken f w s = true then a else readReg s r := by
  simp only [jumpIf]
  by_cases h : jumpTaken f w s = true <;> simp [h, readReg_writeReg]

end Sys2Proof.Machine
end

