-- ==== Sys2Proof/Laws/Flags.lean ====
section
/-! SUPPORT. What each shared computation of a result, a carry or an overflow answers, in plain arithmetic (10_state.md R16,
42_arithmetic.md R82 to R89). -/

namespace Sys2Proof.Machine

/-- Bit 15 of a Word is its sign. -/
theorem getLsbD_fifteen (a : Word) : a.getLsbD 15 = decide (0x8000 ≤ a.toNat) := by
  simpa [BitVec.msb, BitVec.getMsbD] using BitVec.msb_eq_decide a

/-- Bit 16 of a 17-bit sum. -/
theorem testBit_sixteen {n : Nat} (h : n < 131072) : n.testBit 16 = decide (0xFFFF < n) := by
  rw [Nat.testBit_eq_decide_div_mod_eq]
  by_cases h2 : 0xFFFF < n
  · simp only [h2, decide_true, decide_eq_true_eq]; omega
  · simp only [h2, decide_false, decide_eq_false_iff_not]; omega

/-- A Word compared with a literal. -/
theorem beq_ofNat (a : Word) {k : Nat} (hk : k < 65536) : (a == BitVec.ofNat 16 k) = decide (a.toNat = k) := by
  by_cases h : a.toNat = k
  · subst h; simp
  · have : a ≠ BitVec.ofNat 16 k := by
      rintro rfl
      rw [BitVec.toNat_ofNat] at h
      omega
    simp [h, this]

theorem not_fitsSigned (z : Int) : (!fitsSigned z) = decide (z < -32768 ∨ 32767 < z) := by
  simp only [fitsSigned]
  by_cases h1 : -32768 ≤ z <;> by_cases h2 : z ≤ 32767 <;> simp [h1, h2] <;> omega

theorem sumWord_false (a b : Word) : sumWord a b false = a + b := by
  apply BitVec.eq_of_toNat_eq
  simp [sumWord, wideSum]

theorem sumCarry_eq (a b : Word) (c : Bool) : sumCarry a b c = decide (0xFFFF < a.toNat + b.toNat + c.toNat) := by
  unfold sumCarry wideSum
  rw [testBit_sixteen]
  have := a.isLt
  have := b.isLt
  have := c.toNat_le
  omega

theorem sumOverflow_eq (a b : Word) (c : Bool) :
    sumOverflow a b c =
      decide (a.toInt + b.toInt + (c.toNat : Int) < -32768 ∨ 32767 < a.toInt + b.toInt + (c.toNat : Int)) := not_fitsSigned _

theorem differenceWord_eq (a b : Word) : differenceWord a b = a - b := by
  apply BitVec.eq_of_toNat_eq
  have := a.isLt
  have := b.isLt
  simp only [differenceWord, BitVec.toNat_ofInt, BitVec.toNat_sub]
  omega

theorem differenceOverflow_eq (a b : Word) :
    differenceOverflow a b = decide (a.toInt - b.toInt < -32768 ∨ 32767 < a.toInt - b.toInt) := not_fitsSigned _

/-- The two halves of a product are its 32 bits. -/
theorem productHigh_append_productLow (a b : Word) : productHigh a b ++ productLow a b = product32 a b := by
  apply BitVec.eq_of_getLsbD_eq
  intro i hi
  simp only [productHigh, productLow, BitVec.getLsbD_append, BitVec.getLsbD_extractLsb']
  by_cases h : i < 16
  · simp [h]
  · have h1 : 16 + (i - 16) = i := by omega
    have h2 : i - 16 < 16 := by omega
    simp [h, h2, h1]

end Sys2Proof.Machine
end

