-- ==== Sys2Proof/Laws/Step.lean ====
section
/-! SUPPORT. What a step can do, said once (40_execution_loop.md R58). -/

namespace Sys2Proof.Machine

theorem step_of_not_running {s : State} (h : s.status ≠ .running) : step s = .next s := by
  unfold step; split <;> first | rfl | contradiction

theorem step_of_running {s : State} (h : s.status = .running) : step s = stepRunning s := by
  simp [step, h]

theorem stepRunning_instr {s t : State} {i : Instr} (hd : decodeAt s = .instr i) (he : exec i s = .next t) :
    stepRunning s = .next (advanceUnless (redirects i s) (instrLength i) t) := by
  simp [stepRunning, hd, he]

/-- The cases of a step that answers a next state: nothing outside Running; a fault at decode; or the handler of the decoded
instruction and then the loop's policy. -/
theorem step_cases {s t : State} (h : step s = .next t) :
    (s.status ≠ .running ∧ t = s) ∨
    (s.status = .running ∧ decodeAt s = .invalidOpcode ∧ t = takeFault .invalidOpcode 0#5 s) ∨
    (s.status = .running ∧ ∃ id, decodeAt s = .invalidRegister id ∧ t = takeFault .invalidRegister id s) ∨
    (s.status = .running ∧ ∃ i u, decodeAt s = .instr i ∧ exec i s = .next u ∧
      t = advanceUnless (redirects i s) (instrLength i) u) := by
  by_cases hr : s.status = .running
  · rw [step_of_running hr] at h
    rcases hd : decodeAt s with i | _ | id
    · rcases he : exec i s with u | f | r
      · simp only [stepRunning, hd, he, Host.Outcome.next.injEq] at h
        exact .inr (.inr (.inr ⟨hr, i, u, rfl, he, h.symm⟩))
      · simp [stepRunning, hd, he] at h
      · simp [stepRunning, hd, he] at h
    · simp only [stepRunning, hd, Host.Outcome.next.injEq] at h
      exact .inr (.inl ⟨hr, rfl, h.symm⟩)
    · simp only [stepRunning, hd, Host.Outcome.next.injEq] at h
      exact .inr (.inr (.inl ⟨hr, id, rfl, h.symm⟩))
  · rw [step_of_not_running hr] at h
    exact .inl ⟨hr, (Host.Outcome.next.inj h).symm⟩

end Sys2Proof.Machine
end

