-- ==== Sys2Proof/Laws/Loop.lean ====
section
/-! SUPPORT. The loop after a handler, once for every instruction (40_execution_loop.md R62). -/

namespace Sys2Proof.Machine

/-- A handler that does not redirect is followed by the advance. -/
theorem thenAdvances_of {i : Instr} {len : Nat} {s t : State} (he : exec i s = .next t) (hr : redirects i s = false)
    (hl : instrLength i = len) : ThenAdvances i len s t := by
  intro h hd
  rw [step_of_running h, stepRunning_instr hd he, hr, hl]
  rfl

/-- A handler that redirects is followed by nothing. -/
theorem thenRedirected_of {i : Instr} {s t : State} (he : exec i s = .next t) (hr : redirects i s = true) :
    ThenRedirected i s t := by
  intro h hd
  rw [step_of_running h, stepRunning_instr hd he, hr]
  rfl

end Sys2Proof.Machine
end

