-- ==== Sys2Proof/Laws/Memory.lean ====
section
/-! SUPPORT. The laws of memory: read after write, what a write leaves alone, and the canonical form, which every memory
operation and reset keep. -/

namespace Sys2Proof.Machine

/-! ### Bytes: read after write, for any list -/

theorem Memory.readByte_remove (m : Memory) (n k : Nat) :
    (Memory.remove m n).readByte k = if k = n then Config.resetByte else m.readByte k := by
  induction m with
  | nil => simp [Memory.remove, Memory.readByte]
  | cons e rest ih =>
    obtain ⟨j, b⟩ := e
    by_cases h : j = n
    · subst h
      simp only [Memory.remove, if_true, ih, Memory.readByte]
      by_cases hk : k = j
      · simp [hk]
      · simp [hk, Ne.symm hk]
    · simp only [Memory.remove, h, if_false, Memory.readByte, ih]
      by_cases hk : j = k
      · subst hk; simp [h]
      · simp [hk]

theorem Memory.key_ne_of_mem_remove {m : Memory} {n : Nat} {e : Host.Cell} (h : e ∈ Memory.remove m n) : e.1 ≠ n := by
  induction m with
  | nil => simp [Memory.remove] at h
  | cons c rest ih =>
    obtain ⟨j, b⟩ := c
    by_cases hj : j = n
    · simp only [Memory.remove, hj, if_true] at h; exact ih h
    · simp only [Memory.remove, hj, if_false, List.mem_cons] at h
      rcases h with rfl | h
      · exact hj
      · exact ih h

theorem Memory.readByte_insert {m : Memory} {n : Nat} (v : Byte) (k : Nat) (h : ∀ e ∈ m, e.1 ≠ n) :
    (Memory.insert m n v).readByte k = if k = n then v else m.readByte k := by
  induction m with
  | nil =>
    by_cases hk : k = n
    · simp [Memory.insert, Memory.readByte, hk]
    · simp [Memory.insert, Memory.readByte, hk, Ne.symm hk]
  | cons e rest ih =>
    obtain ⟨j, b⟩ := e
    have hj : j ≠ n := h (j, b) (by simp)
    by_cases hlt : n < j
    · simp only [Memory.insert, hlt, if_true]
      rw [Memory.readByte]
      by_cases hk : k = n
      · simp [hk]
      · simp [hk, Ne.symm hk]
    · simp only [Memory.insert, hlt, if_false, Memory.readByte, ih fun e he => h e (by simp [he])]
      by_cases hk : j = k
      · subst hk; simp [hj]
      · simp [hk]

/-- A byte reads as what was written last to its number, and as before at every other number. -/
@[simp] theorem Memory.readByte_writeByte (m : Memory) (n k : Nat) (v : Byte) :
    (m.writeByte n v).readByte k = if k = n then v else m.readByte k := by
  unfold Memory.writeByte
  split
  · next h => simp [Memory.readByte_remove, h]
  · rw [Memory.readByte_insert v k fun _ he => Memory.key_ne_of_mem_remove he, Memory.readByte_remove]
    by_cases hk : k = n <;> simp [hk]

/-! ### Words (20_memory.md R26, R27) -/

theorem lowByteOf_inj {a b : Word} (h : lowByteOf a = lowByteOf b) : a = b := by
  apply BitVec.eq_of_toNat_eq; simp only [lowByteOf] at h; omega

theorem lowByteOf_ne_succ (a b : Word) : lowByteOf a ≠ lowByteOf b + 1 := by simp only [lowByteOf]; omega

theorem lowByteOf_lt (a : Word) : lowByteOf a + 1 < Config.memBytes := by
  have := a.isLt; simp only [lowByteOf, Config.memBytes]; omega

/-- Each byte after a Word is written. -/
theorem Memory.readByte_writeWord (m : Memory) (a v : Word) (n : Nat) :
    (m.writeWord a v).readByte n =
      if n = lowByteOf a + 1 then v.extractLsb' 8 8 else if n = lowByteOf a then v.extractLsb' 0 8 else m.readByte n := by
  simp [Memory.writeWord]

/-- A Word is its high byte and its low byte. -/
theorem word_of_bytes (v : Word) : v.extractLsb' 8 8 ++ v.extractLsb' 0 8 = v := by
  apply BitVec.eq_of_getLsbD_eq
  intro i hi
  simp only [BitVec.getLsbD_append, BitVec.getLsbD_extractLsb']
  by_cases h : i < 8
  · simp [h]
  · have : 8 + (i - 8) = i := by omega
    simp [h, this]; omega

/-- "A `MemRead(a, 1)` returns the value of the most recent `MemWrite(a, 1, v)`", and no other cell changes (20_memory.md
R27, R36). -/
theorem Memory.readWord_writeWord (m : Memory) (a b v : Word) :
    (m.writeWord a v).readWord b = if b = a then v else m.readWord b := by
  by_cases h : b = a
  · subst h
    simp [Memory.readWord, Memory.readByte_writeWord, word_of_bytes]
  · have h1 : lowByteOf b ≠ lowByteOf a := fun e => h (lowByteOf_inj e)
    have h2 := lowByteOf_ne_succ b a
    have h3 : lowByteOf b + 1 ≠ lowByteOf a := fun e => lowByteOf_ne_succ a b e.symm
    simp [Memory.readWord, Memory.readByte_writeWord, h, h1, h2, h3]

/-- The same in a state. -/
theorem memRead_memWrite (s : State) (a b v : Word) : memRead (memWrite s a v) b = if b = a then v else memRead s b :=
  Memory.readWord_writeWord s.mem a b v

/-! ### The canonical form -/

theorem Memory.wfFrom_mono {lo lo' : Nat} {m : Memory} (h : Memory.wfFrom lo m = true) (hl : lo' ≤ lo) :
    Memory.wfFrom lo' m = true := by
  cases m with
  | nil => rfl
  | cons e rest =>
    simp only [Memory.wfFrom, Bool.and_eq_true, decide_eq_true_eq] at h ⊢
    exact ⟨⟨⟨by omega, h.1.1.2⟩, h.1.2⟩, h.2⟩

theorem Memory.wfFrom_remove {lo : Nat} {m : Memory} (n : Nat) (h : Memory.wfFrom lo m = true) :
    Memory.wfFrom lo (m.remove n) = true := by
  induction m generalizing lo with
  | nil => rfl
  | cons e rest ih =>
    obtain ⟨j, b⟩ := e
    simp only [Memory.wfFrom, Bool.and_eq_true, decide_eq_true_eq] at h
    by_cases hj : j = n
    · simp only [Memory.remove, hj, if_true]
      exact Memory.wfFrom_mono (ih h.2) (by omega)
    · simp only [Memory.remove, hj, if_false, Memory.wfFrom, Bool.and_eq_true, decide_eq_true_eq]
      exact ⟨h.1, ih h.2⟩

theorem Memory.wfFrom_insert {lo n : Nat} {m : Memory} {v : Byte} (h : Memory.wfFrom lo m = true) (hlo : lo ≤ n)
    (hn : n < Config.memBytes) (hv : v ≠ Config.resetByte) (hne : ∀ e ∈ m, e.1 ≠ n) :
    Memory.wfFrom lo (Memory.insert m n v) = true := by
  induction m generalizing lo with
  | nil => simp [Memory.insert, Memory.wfFrom, hlo, hn, hv]
  | cons e rest ih =>
    obtain ⟨j, b⟩ := e
    have hj : j ≠ n := hne (j, b) (by simp)
    simp only [Memory.wfFrom, Bool.and_eq_true, decide_eq_true_eq] at h
    by_cases hlt : n < j
    · simp only [Memory.insert, hlt, if_true, Memory.wfFrom, Bool.and_eq_true, decide_eq_true_eq]
      exact ⟨⟨⟨hlo, hn⟩, hv⟩, ⟨⟨by omega, h.1.1.2⟩, h.1.2⟩, h.2⟩
    · simp only [Memory.insert, hlt, if_false, Memory.wfFrom, Bool.and_eq_true, decide_eq_true_eq]
      exact ⟨h.1, ih h.2 (by omega) fun e he => hne e (by simp [he])⟩

/-- Writing a byte inside the 131,072 keeps the canonical form. -/
theorem Memory.wf_writeByte {m : Memory} {n : Nat} (v : Byte) (h : m.wf = true) (hn : n < Config.memBytes) :
    (m.writeByte n v).wf = true := by
  unfold Memory.writeByte
  split
  · exact Memory.wfFrom_remove n h
  · next hv =>
    exact Memory.wfFrom_insert (Memory.wfFrom_remove n h) (Nat.zero_le n) hn hv fun _ he => Memory.key_ne_of_mem_remove he

/-- Writing a Word at any address keeps the canonical form. -/
theorem Memory.wf_writeWord {m : Memory} (a v : Word) (h : m.wf = true) : (m.writeWord a v).wf = true := by
  have := lowByteOf_lt a
  exact Memory.wf_writeByte _ (Memory.wf_writeByte _ h (by omega)) this

/-- Reset's memory is canonical. -/
theorem Memory.wf_reset : State.reset.mem.wf = true := rfl

theorem Memory.wfFrom_imageMemory (bytes : List Byte) (n : Nat) (h : n + bytes.length ≤ Config.memBytes) :
    Memory.wfFrom n (imageMemory n bytes) = true := by
  induction bytes generalizing n with
  | nil => rfl
  | cons b rest ih =>
    simp only [List.length_cons] at h
    simp only [imageMemory]
    split
    · exact Memory.wfFrom_mono (ih (n + 1) (by omega)) (by omega)
    · next hb =>
      simp only [Memory.wfFrom, Bool.and_eq_true, decide_eq_true_eq]
      exact ⟨⟨⟨le_refl n, by omega⟩, hb⟩, ih (n + 1) (by omega)⟩

/-- The memory of an image of the exact size is canonical. -/
theorem Memory.wf_imageMemory {bytes : List Byte} (h : bytes.length = Config.memBytes) :
    Memory.wf (imageMemory 0 bytes) = true := Memory.wfFrom_imageMemory bytes 0 (by omega)

/-- Every byte an image gave reads back (70_reset_and_hazards.md R136), and no byte before it does. -/
theorem Memory.readByte_imageMemory (bytes : List Byte) (n k : Nat) :
    (imageMemory n bytes).readByte k = if n ≤ k then bytes.getD (k - n) Config.resetByte else Config.resetByte := by
  induction bytes generalizing n with
  | nil => simp [imageMemory, Memory.readByte]
  | cons b rest ih =>
    have key : (if n + 1 ≤ k then rest.getD (k - (n + 1)) Config.resetByte else Config.resetByte) =
        if n = k then Config.resetByte
        else if n ≤ k then (b :: rest).getD (k - n) Config.resetByte else Config.resetByte := by
      by_cases h1 : n = k
      · subst h1; simp
      · by_cases h2 : n ≤ k
        · have e : k - n = (k - (n + 1)) + 1 := by omega
          have h3 : n + 1 ≤ k := by omega
          simp [h1, h2, h3, e]
        · have h3 : ¬ n + 1 ≤ k := by omega
          simp [h2, h3]
    simp only [imageMemory]
    split
    · next hb =>
      rw [ih, key]
      by_cases h1 : n = k
      · subst h1; simp [hb]
      · simp [h1]
    · rw [Memory.readByte, ih, key]
      by_cases h1 : n = k
      · subst h1; simp
      · simp [h1]

/-! ### Canonical memories with equal bytes are equal lists -/

theorem Memory.readByte_of_wfFrom_lt {lo n : Nat} {m : Memory} (h : Memory.wfFrom lo m = true) (hn : n < lo) :
    m.readByte n = Config.resetByte := by
  induction m generalizing lo with
  | nil => rfl
  | cons e rest ih =>
    obtain ⟨j, b⟩ := e
    simp only [Memory.wfFrom, Bool.and_eq_true, decide_eq_true_eq] at h
    have hj : j ≠ n := by omega
    simp only [Memory.readByte, hj, if_false]
    exact ih h.2 (by omega)

theorem Memory.ext_of_wfFrom {lo : Nat} {m₁ m₂ : Memory} (h₁ : Memory.wfFrom lo m₁ = true)
    (h₂ : Memory.wfFrom lo m₂ = true) (h : ∀ n, m₁.readByte n = m₂.readByte n) : m₁ = m₂ := by
  induction m₁ generalizing m₂ lo with
  | nil =>
    cases m₂ with
    | nil => rfl
    | cons e rest =>
      obtain ⟨j, b⟩ := e
      simp only [Memory.wfFrom, Bool.and_eq_true, decide_eq_true_eq] at h₂
      have := h j
      simp only [Memory.readByte, if_true] at this
      exact absurd this.symm h₂.1.2
  | cons e rest ih =>
    obtain ⟨j, b⟩ := e
    simp only [Memory.wfFrom, Bool.and_eq_true, decide_eq_true_eq] at h₁
    cases m₂ with
    | nil =>
      have := h j
      simp only [Memory.readByte, if_true] at this
      exact absurd this h₁.1.2
    | cons e' rest' =>
      obtain ⟨k, b'⟩ := e'
      simp only [Memory.wfFrom, Bool.and_eq_true, decide_eq_true_eq] at h₂
      have hjk : j = k := by
        rcases Nat.lt_trichotomy j k with hlt | heq | hgt
        · have hk : k ≠ j := by omega
          have := h j
          simp only [Memory.readByte, if_true, hk, if_false,
            Memory.readByte_of_wfFrom_lt h₂.2 (show j < k + 1 by omega)] at this
          exact absurd this h₁.1.2
        · exact heq
        · have hj : j ≠ k := by omega
          have := h k
          simp only [Memory.readByte, if_true, hj, if_false,
            Memory.readByte_of_wfFrom_lt h₁.2 (show k < j + 1 by omega)] at this
          exact absurd this.symm h₂.1.2
      subst hjk
      have hb : b = b' := by have := h j; simpa [Memory.readByte] using this
      subst hb
      have hrest : rest = rest' := by
        apply ih h₁.2 h₂.2
        intro n
        by_cases hn : j = n
        · subst hn
          rw [Memory.readByte_of_wfFrom_lt h₁.2 (by omega), Memory.readByte_of_wfFrom_lt h₂.2 (by omega)]
        · have := h n
          simpa [Memory.readByte, hn] using this
      rw [hrest]

/-- Two canonical memories that read the same at every byte are the same list. -/
theorem Memory.ext_of_wf {m₁ m₂ : Memory} (h₁ : m₁.wf = true) (h₂ : m₂.wf = true)
    (h : ∀ n, m₁.readByte n = m₂.readByte n) : m₁ = m₂ := Memory.ext_of_wfFrom h₁ h₂ h

end Sys2Proof.Machine
end

