-- ==== Sys2Proof/Laws/Frames.lean ====
section
/-! SUPPORT. The frame of each shared operation, and the encoding of each format, in the terms of Safety.lean. -/

namespace Sys2Proof.Machine

/-! ### Registers and memory -/

theorem onlyRegs_writeReg (s : State) (r : Reg) (v : Word) : OnlyRegs [r] s (writeReg s r v) := by
  refine ⟨fun q hq => ?_, by simp, fun n => by simp, by simp [SameLifecycle]⟩
  simp only [List.mem_singleton] at hq
  simp [readReg_writeReg, hq]

/-- A load changes its destination only, to the Word at the address as it was (20_memory.md R26). -/
theorem load_spec (rd : Reg) (src : MemOperand) (s : State) :
    readReg (load rd src s) rd = memRead s (effectiveAddress s src) ∧ OnlyRegs [rd] s (load rd src s) :=
  ⟨readReg_writeReg_self .., onlyRegs_writeReg ..⟩

/-- A store changes its cell only (20_memory.md R27). -/
theorem store_spec (dst : MemOperand) (v : Word) (s : State) :
    memRead (store dst v s) (effectiveAddress s dst) = v ∧ OnlyCell (effectiveAddress s dst) s (store dst v s) := by
  refine ⟨by simp [store, memRead_memWrite], fun q _ => by simp [store], by simp [store], fun n h1 h2 => ?_,
    by simp [store, SameLifecycle]⟩
  simp [store, Memory.readByte_writeWord, h1, h2]

theorem onlyRegs_jumpIf (s : State) (f : Flag) (w : Bool) (a : Word) : OnlyRegs [.rip] s (jumpIf f w a s) := by
  refine ⟨fun q hq => ?_, by simp, fun n => by simp, by simp [SameLifecycle]⟩
  simp only [List.mem_singleton] at hq
  simp [readReg_jumpIf, hq]

/-! ### Flags -/

/-- The flag rule leaves the flags of its result, carry and overflow (10_state.md R16). -/
theorem flagsOf_setFlags (s : State) (res : Word) (c v : Bool) : FlagsOf (setFlags res c v s) res c v := by
  refine ⟨?_, ?_, ?_, ?_, ?_⟩ <;> simp only [getFlag_setFlags]
  · exact beq_ofNat res (by omega)
  · exact getLsbD_fifteen res

theorem onlyRegsAndFlags_setFlags (s : State) (res : Word) (c v : Bool) : OnlyRegsAndFlags [] s (setFlags res c v s) :=
  ⟨fun q _ => by simp, fun n => by simp, by simp [SameLifecycle]⟩

theorem onlyRegsAndFlags_writeResult (s : State) (rd : Reg) (res : Word) (c v : Bool) :
    OnlyRegsAndFlags [rd] s (writeResult rd res c v s) := by
  refine ⟨fun q hq => ?_, fun n => by simp, by simp [SameLifecycle]⟩
  simp only [List.mem_singleton] at hq
  simp [hq]

theorem onlyRegsAndFlags_writeResults (s : State) (rd rs : Reg) (x y : Word) (c v : Bool) :
    OnlyRegsAndFlags [rd, rs] s (writeResults rd x rs y c v s) := by
  refine ⟨fun q hq => ?_, fun n => by simp, by simp [SameLifecycle]⟩
  simp only [List.mem_cons, List.not_mem_nil, or_false, not_or] at hq
  simp [hq]

/-- A handler that ends in `writeResult` writes a result in the sense of Safety.lean. -/
theorem writesResult_of {i : Instr} {s : State} {rd : Reg} {res : Word} {c v : Bool}
    (he : exec i s = .next (writeResult rd res c v s)) (hr : redirects i s = false) (hl : instrLength i = 1) :
    WritesResult i s rd res c v :=
  ⟨_, he, by simp, flagsOf_setFlags .., onlyRegsAndFlags_writeResult .., thenAdvances_of he hr hl⟩

/-! ### Formats -/

theorem encodedRR_of {op : BitVec 6} {mk : Reg → Reg → Instr}
    (he : ∀ a b, encode (mk a b) = [firstWord op a.toField b.toField]) (hl : ∀ a b, instrLength (mk a b) = 1)
    (hd : ∀ ra rb e1 e2, decodeFields op ra rb e1 e2 = decodeRR mk ra rb) : EncodedRR op.toNat mk := by
  refine ⟨fun a b => ⟨by rw [he, firstWord_eq_ofNat], hl a b⟩, fun ra rb e1 e2 => ?_⟩
  rw [← firstWord_eq_ofNat]
  simp only [decode_firstWord, hd]
  rcases decodeRR_cases mk ra rb with ⟨h1, h⟩ | ⟨h1, h2, h⟩ | ⟨h1, h2, a, b, ha, hb, h⟩
  · rw [if_pos h1, h]
  · rw [if_neg h1, if_pos h2, h]
  · rw [if_neg h1, if_neg h2]; exact ⟨a, b, ha, hb, h⟩

theorem encodedR_of {op : BitVec 6} {hasExt : Bool} {mk : Reg → Word → Instr}
    (he : ∀ a x, encode (mk a x) = firstWord op a.toField 0 :: (if hasExt then [x] else []))
    (hl : ∀ a x, instrLength (mk a x) = if hasExt then 2 else 1)
    (hd : ∀ ra rb e1 e2, decodeFields op ra rb e1 e2 = decodeR (fun a => mk a e1) ra rb) : EncodedR op.toNat hasExt mk := by
  refine ⟨fun a x => ⟨by rw [he, firstWord_eq_ofNat]; simp, hl a x⟩, fun ra rb e1 e2 => ?_⟩
  rw [← firstWord_eq_ofNat]
  simp only [decode_firstWord, hd]
  rcases decodeR_cases (fun a => mk a e1) ra rb with ⟨h1, h⟩ | ⟨h1, h2, h⟩ | ⟨h1, h2, a, ha, h⟩
  · rw [if_pos h1, h]
  · rw [if_neg (by simp [h1]), if_pos h2, h]
  · rw [if_neg (by simp [h1]), if_neg h2]; exact ⟨a, ha, h⟩

theorem encodedA_of {op : BitVec 6} {hasImm : Bool} {mk : Word → Word → Instr}
    (he : ∀ x y, encode (mk x y) = firstWord op 0 0 :: x :: (if hasImm then [y] else []))
    (hl : ∀ x y, instrLength (mk x y) = if hasImm then 3 else 2)
    (hd : ∀ ra rb e1 e2, decodeFields op ra rb e1 e2 = decodeA (mk e1 e2) ra rb) : EncodedA op.toNat hasImm mk := by
  refine ⟨fun x y => ⟨by rw [he, firstWord_eq_ofNat]; simp, hl x y⟩, fun ra rb e1 e2 => ?_⟩
  rw [← firstWord_eq_ofNat]
  simp only [decode_firstWord, hd]
  have zero : ∀ f : RegField, f.toNat ≠ 0 ↔ f ≠ 0#5 := fun f => by
    rw [ne_eq, ne_eq, not_iff_not]
    exact ⟨fun h => BitVec.eq_of_toNat_eq (by simpa using h), fun h => by simp [h]⟩
  simp only [decodeA, zero]
  split <;> rfl

end Sys2Proof.Machine
end

