-- ==== Sys2Proof/Laws/PerInstr.lean ====
section
/-! SUPPORT. Statements about every instruction as syntax, one lemma for each constructor. -/

namespace Sys2Proof.Laws

/-- The encoder writes exactly as many Words as the loop adds to `pc`, one to three of them (30_encoding.md R43, R51). -/
def EncodedLength.Statement (i : Instr) : Prop :=
  (encode i).length = instrLength i ∧ 1 ≤ instrLength i ∧ instrLength i ≤ 3

theorem encodedLength_of {i : Instr} {n : Nat} (h1 : (encode i).length = n) (h2 : instrLength i = n) (h3 : 1 ≤ n)
    (h4 : n ≤ 3) : EncodedLength.Statement i := ⟨h1.trans h2.symm, h2 ▸ h3, h2 ▸ h4⟩

theorem EncodedLength.mov (rd rs : Reg) : EncodedLength.Statement (.mov rd rs) :=
  encodedLength_of (n := 1) rfl (by simp [instrLength, opcodeOf, encode, lengthOfOp]) (by omega) (by omega)
theorem EncodedLength.ldi (rd : Reg) (imm : Word) : EncodedLength.Statement (.ldi rd imm) :=
  encodedLength_of (n := 2) rfl (by simp [instrLength, opcodeOf, encode, lengthOfOp]) (by omega) (by omega)
theorem EncodedLength.ld (rd : Reg) (addr : Word) : EncodedLength.Statement (.ld rd addr) :=
  encodedLength_of (n := 2) rfl (by simp [instrLength, opcodeOf, encode, lengthOfOp]) (by omega) (by omega)
theorem EncodedLength.st (addr : Word) (rs : Reg) : EncodedLength.Statement (.st addr rs) :=
  encodedLength_of (n := 2) rfl (by simp [instrLength, opcodeOf, encode, lengthOfOp]) (by omega) (by omega)
theorem EncodedLength.ldr (rd rs : Reg) : EncodedLength.Statement (.ldr rd rs) :=
  encodedLength_of (n := 1) rfl (by simp [instrLength, opcodeOf, encode, lengthOfOp]) (by omega) (by omega)
theorem EncodedLength.str (rd rs : Reg) : EncodedLength.Statement (.str rd rs) :=
  encodedLength_of (n := 1) rfl (by simp [instrLength, opcodeOf, encode, lengthOfOp]) (by omega) (by omega)
theorem EncodedLength.sti (addr imm : Word) : EncodedLength.Statement (.sti addr imm) :=
  encodedLength_of (n := 3) rfl (by simp [instrLength, opcodeOf, encode, lengthOfOp]) (by omega) (by omega)
theorem EncodedLength.xchg (ra rb : Reg) : EncodedLength.Statement (.xchg ra rb) :=
  encodedLength_of (n := 1) rfl (by simp [instrLength, opcodeOf, encode, lengthOfOp]) (by omega) (by omega)
theorem EncodedLength.rdf (rd : Reg) : EncodedLength.Statement (.rdf rd) :=
  encodedLength_of (n := 1) rfl (by simp [instrLength, opcodeOf, encode, lengthOfOp]) (by omega) (by omega)
theorem EncodedLength.wrf (rs : Reg) : EncodedLength.Statement (.wrf rs) :=
  encodedLength_of (n := 1) rfl (by simp [instrLength, opcodeOf, encode, lengthOfOp]) (by omega) (by omega)
theorem EncodedLength.add (rd rs : Reg) : EncodedLength.Statement (.add rd rs) :=
  encodedLength_of (n := 1) rfl (by simp [instrLength, opcodeOf, encode, lengthOfOp]) (by omega) (by omega)
theorem EncodedLength.adc (rd rs : Reg) : EncodedLength.Statement (.adc rd rs) :=
  encodedLength_of (n := 1) rfl (by simp [instrLength, opcodeOf, encode, lengthOfOp]) (by omega) (by omega)
theorem EncodedLength.cmp (ra rb : Reg) : EncodedLength.Statement (.cmp ra rb) :=
  encodedLength_of (n := 1) rfl (by simp [instrLength, opcodeOf, encode, lengthOfOp]) (by omega) (by omega)
theorem EncodedLength.inc (rd : Reg) : EncodedLength.Statement (.inc rd) :=
  encodedLength_of (n := 1) rfl (by simp [instrLength, opcodeOf, encode, lengthOfOp]) (by omega) (by omega)
theorem EncodedLength.dec (rd : Reg) : EncodedLength.Statement (.dec rd) :=
  encodedLength_of (n := 1) rfl (by simp [instrLength, opcodeOf, encode, lengthOfOp]) (by omega) (by omega)
theorem EncodedLength.neg (rd : Reg) : EncodedLength.Statement (.neg rd) :=
  encodedLength_of (n := 1) rfl (by simp [instrLength, opcodeOf, encode, lengthOfOp]) (by omega) (by omega)
theorem EncodedLength.mul (rd rs : Reg) : EncodedLength.Statement (.mul rd rs) :=
  encodedLength_of (n := 1) rfl (by simp [instrLength, opcodeOf, encode, lengthOfOp]) (by omega) (by omega)
theorem EncodedLength.div (rd rs : Reg) : EncodedLength.Statement (.div rd rs) :=
  encodedLength_of (n := 1) rfl (by simp [instrLength, opcodeOf, encode, lengthOfOp]) (by omega) (by omega)
theorem EncodedLength.and (rd rs : Reg) : EncodedLength.Statement (.and rd rs) :=
  encodedLength_of (n := 1) rfl (by simp [instrLength, opcodeOf, encode, lengthOfOp]) (by omega) (by omega)
theorem EncodedLength.or (rd rs : Reg) : EncodedLength.Statement (.or rd rs) :=
  encodedLength_of (n := 1) rfl (by simp [instrLength, opcodeOf, encode, lengthOfOp]) (by omega) (by omega)
theorem EncodedLength.xor (rd rs : Reg) : EncodedLength.Statement (.xor rd rs) :=
  encodedLength_of (n := 1) rfl (by simp [instrLength, opcodeOf, encode, lengthOfOp]) (by omega) (by omega)
theorem EncodedLength.not (rd : Reg) : EncodedLength.Statement (.not rd) :=
  encodedLength_of (n := 1) rfl (by simp [instrLength, opcodeOf, encode, lengthOfOp]) (by omega) (by omega)
theorem EncodedLength.test (ra rb : Reg) : EncodedLength.Statement (.test ra rb) :=
  encodedLength_of (n := 1) rfl (by simp [instrLength, opcodeOf, encode, lengthOfOp]) (by omega) (by omega)
theorem EncodedLength.shl (rd : Reg) : EncodedLength.Statement (.shl rd) :=
  encodedLength_of (n := 1) rfl (by simp [instrLength, opcodeOf, encode, lengthOfOp]) (by omega) (by omega)
theorem EncodedLength.shr (rd : Reg) : EncodedLength.Statement (.shr rd) :=
  encodedLength_of (n := 1) rfl (by simp [instrLength, opcodeOf, encode, lengthOfOp]) (by omega) (by omega)
theorem EncodedLength.sar (rd : Reg) : EncodedLength.Statement (.sar rd) :=
  encodedLength_of (n := 1) rfl (by simp [instrLength, opcodeOf, encode, lengthOfOp]) (by omega) (by omega)
theorem EncodedLength.rol (rd : Reg) : EncodedLength.Statement (.rol rd) :=
  encodedLength_of (n := 1) rfl (by simp [instrLength, opcodeOf, encode, lengthOfOp]) (by omega) (by omega)
theorem EncodedLength.ror (rd : Reg) : EncodedLength.Statement (.ror rd) :=
  encodedLength_of (n := 1) rfl (by simp [instrLength, opcodeOf, encode, lengthOfOp]) (by omega) (by omega)
theorem EncodedLength.rcl (rd : Reg) : EncodedLength.Statement (.rcl rd) :=
  encodedLength_of (n := 1) rfl (by simp [instrLength, opcodeOf, encode, lengthOfOp]) (by omega) (by omega)
theorem EncodedLength.rcr (rd : Reg) : EncodedLength.Statement (.rcr rd) :=
  encodedLength_of (n := 1) rfl (by simp [instrLength, opcodeOf, encode, lengthOfOp]) (by omega) (by omega)
theorem EncodedLength.jmp (addr : Word) : EncodedLength.Statement (.jmp addr) :=
  encodedLength_of (n := 2) rfl (by simp [instrLength, opcodeOf, encode, lengthOfOp]) (by omega) (by omega)
theorem EncodedLength.jmpr (rs : Reg) : EncodedLength.Statement (.jmpr rs) :=
  encodedLength_of (n := 1) rfl (by simp [instrLength, opcodeOf, encode, lengthOfOp]) (by omega) (by omega)
theorem EncodedLength.jz (addr : Word) : EncodedLength.Statement (.jz addr) :=
  encodedLength_of (n := 2) rfl (by simp [instrLength, opcodeOf, encode, lengthOfOp]) (by omega) (by omega)
theorem EncodedLength.jnz (addr : Word) : EncodedLength.Statement (.jnz addr) :=
  encodedLength_of (n := 2) rfl (by simp [instrLength, opcodeOf, encode, lengthOfOp]) (by omega) (by omega)
theorem EncodedLength.js (addr : Word) : EncodedLength.Statement (.js addr) :=
  encodedLength_of (n := 2) rfl (by simp [instrLength, opcodeOf, encode, lengthOfOp]) (by omega) (by omega)
theorem EncodedLength.jns (addr : Word) : EncodedLength.Statement (.jns addr) :=
  encodedLength_of (n := 2) rfl (by simp [instrLength, opcodeOf, encode, lengthOfOp]) (by omega) (by omega)
theorem EncodedLength.jc (addr : Word) : EncodedLength.Statement (.jc addr) :=
  encodedLength_of (n := 2) rfl (by simp [instrLength, opcodeOf, encode, lengthOfOp]) (by omega) (by omega)
theorem EncodedLength.jnc (addr : Word) : EncodedLength.Statement (.jnc addr) :=
  encodedLength_of (n := 2) rfl (by simp [instrLength, opcodeOf, encode, lengthOfOp]) (by omega) (by omega)
theorem EncodedLength.jo (addr : Word) : EncodedLength.Statement (.jo addr) :=
  encodedLength_of (n := 2) rfl (by simp [instrLength, opcodeOf, encode, lengthOfOp]) (by omega) (by omega)
theorem EncodedLength.jno (addr : Word) : EncodedLength.Statement (.jno addr) :=
  encodedLength_of (n := 2) rfl (by simp [instrLength, opcodeOf, encode, lengthOfOp]) (by omega) (by omega)
theorem EncodedLength.jdz (addr : Word) : EncodedLength.Statement (.jdz addr) :=
  encodedLength_of (n := 2) rfl (by simp [instrLength, opcodeOf, encode, lengthOfOp]) (by omega) (by omega)
theorem EncodedLength.jndz (addr : Word) : EncodedLength.Statement (.jndz addr) :=
  encodedLength_of (n := 2) rfl (by simp [instrLength, opcodeOf, encode, lengthOfOp]) (by omega) (by omega)
theorem EncodedLength.hlt (rs : Reg) : EncodedLength.Statement (.hlt rs) :=
  encodedLength_of (n := 1) rfl (by simp [instrLength, opcodeOf, encode, lengthOfOp]) (by omega) (by omega)

end Sys2Proof.Laws
end

