-- ==== Sys2Proof/Tests/Slice0.lean ====
section
/-! SUPPORT. Tests, each about one step, one word or one event; expected values come from 95_test_vectors.md (ids V and H, of
its programs P) and from the encoding of 30_encoding.md. At the end, the witnesses: for every obligation with hypotheses, and
for each of its clauses, a state and operands that meet them. -/

namespace Sys2Proof.Tests

open Sys2Proof.Machine

/-! ### Helpers -/

/-- A Running state as 95_test_vectors.md describes its vectors: words at `pc`, registers, cells and flags as listed, all else
as after reset. -/
def placed (regs : List (Reg × Word)) (cells : List (Word × Word)) (flags : BitVec 5) (pc : Word) (words : List Word) : State :=
  let s : State := { State.reset with rip := pc, flags := flags, mem := writeWords [] pc words, status := .running }
  cells.foldl (fun s c => memWrite s c.1 c.2) (regs.foldl (fun s r => writeReg s r.1 r.2) s)

/-- The state after an outcome that is a next state. -/
def after : Host.Outcome State Fault Refusal → Option State
  | .next t => some t
  | .fault _ => none
  | .refused _ => none

/-- One step from a `placed` state. -/
def runs (regs : List (Reg × Word)) (cells : List (Word × Word)) (flags : BitVec 5) (pc : Word) (words : List Word) :
    Option State := after (step (placed regs cells flags pc words))

/-- Some registers, some cells, the flags and `pc` of a state. -/
def look (regs : List Reg) (cells : List Word) (o : Option State) : Option (List Word × List Word × BitVec 5 × Word) :=
  o.map fun t => (regs.map (readReg t), cells.map (memRead t), t.flags, t.rip)

/-- What the loop decodes from words at 0x0100, in a state that is Running. -/
def fetched (words : List Word) : Status × Decoded :=
  let s := placed [] [] 0x00 0x0100 words
  (s.status, decodeAt s)

/-! ### Decoding: for every constructor a word written out from the opcode map of 30_encoding.md R47, as `op_ra_rb`

Each also shows the hypotheses of `ThenAdvances` and `ThenRedirected` met, for its instruction. -/

theorem decodes_mov : fetched [0b000001_00011_10000] = (.running, .instr (.mov (.gpr 3) .rip)) := by decide
theorem decodes_ldi : fetched [0b000010_01000_00000, 0x8001] = (.running, .instr (.ldi (.gpr 8) 0x8001)) := by decide
theorem decodes_ld : fetched [0b000011_01101_00000, 0x8001] = (.running, .instr (.ld (.gpr 13) 0x8001)) := by decide
theorem decodes_st : fetched [0b000100_00000_00000, 0x8001] = (.running, .instr (.st 0x8001 (.gpr 0))) := by decide
theorem decodes_ldr : fetched [0b000101_00101_01000] = (.running, .instr (.ldr (.gpr 5) (.gpr 8))) := by decide
theorem decodes_str : fetched [0b000110_01010_01111] = (.running, .instr (.str (.gpr 10) (.gpr 15))) := by decide
theorem decodes_sti : fetched [0b000111_00000_00000, 0x9000, 0x7777] = (.running, .instr (.sti 0x9000 0x7777)) := by decide
theorem decodes_xchg : fetched [0b001000_00010_01011] = (.running, .instr (.xchg (.gpr 2) (.gpr 11))) := by decide
theorem decodes_rdf : fetched [0b001001_00111_00000] = (.running, .instr (.rdf (.gpr 7))) := by decide
theorem decodes_wrf : fetched [0b001010_01100_00000] = (.running, .instr (.wrf (.gpr 12))) := by decide
theorem decodes_add : fetched [0b010000_10001_01110] = (.running, .instr (.add .rp (.gpr 14))) := by decide
theorem decodes_adc : fetched [0b010001_00100_00011] = (.running, .instr (.adc (.gpr 4) (.gpr 3))) := by decide
theorem decodes_cmp : fetched [0b010010_01001_01010] = (.running, .instr (.cmp (.gpr 9) (.gpr 10))) := by decide
theorem decodes_inc : fetched [0b010011_01110_00000] = (.running, .instr (.inc (.gpr 14))) := by decide
theorem decodes_dec : fetched [0b010100_00001_00000] = (.running, .instr (.dec (.gpr 1))) := by decide
theorem decodes_neg : fetched [0b010101_00110_00000] = (.running, .instr (.neg (.gpr 6))) := by decide
theorem decodes_mul : fetched [0b010110_01011_00010] = (.running, .instr (.mul (.gpr 11) (.gpr 2))) := by decide
theorem decodes_div : fetched [0b010111_10000_01001] = (.running, .instr (.div .rip (.gpr 9))) := by decide
theorem decodes_and : fetched [0b011000_00011_10000] = (.running, .instr (.and (.gpr 3) .rip)) := by decide
theorem decodes_or : fetched [0b011001_01000_00101] = (.running, .instr (.or (.gpr 8) (.gpr 5))) := by decide
theorem decodes_xor : fetched [0b011010_01101_01100] = (.running, .instr (.xor (.gpr 13) (.gpr 12))) := by decide
theorem decodes_not : fetched [0b011011_00000_00000] = (.running, .instr (.not (.gpr 0))) := by decide
theorem decodes_test : fetched [0b011100_00101_01000] = (.running, .instr (.test (.gpr 5) (.gpr 8))) := by decide
theorem decodes_shl : fetched [0b100000_01010_00000] = (.running, .instr (.shl (.gpr 10))) := by decide
theorem decodes_shr : fetched [0b100001_01111_00000] = (.running, .instr (.shr (.gpr 15))) := by decide
theorem decodes_sar : fetched [0b100010_00010_00000] = (.running, .instr (.sar (.gpr 2))) := by decide
theorem decodes_rol : fetched [0b100011_00111_00000] = (.running, .instr (.rol (.gpr 7))) := by decide
theorem decodes_ror : fetched [0b100100_01100_00000] = (.running, .instr (.ror (.gpr 12))) := by decide
theorem decodes_rcl : fetched [0b100101_10001_00000] = (.running, .instr (.rcl .rp)) := by decide
theorem decodes_rcr : fetched [0b100110_00100_00000] = (.running, .instr (.rcr (.gpr 4))) := by decide
theorem decodes_jmp : fetched [0b101000_00000_00000, 0xF00E] = (.running, .instr (.jmp 0xF00E)) := by decide
theorem decodes_jmpr : fetched [0b101001_01110_00000] = (.running, .instr (.jmpr (.gpr 14))) := by decide
theorem decodes_jz : fetched [0b101010_00000_00000, 0xF00E] = (.running, .instr (.jz 0xF00E)) := by decide
theorem decodes_jnz : fetched [0b101011_00000_00000, 0xF00E] = (.running, .instr (.jnz 0xF00E)) := by decide
theorem decodes_js : fetched [0b101100_00000_00000, 0xF00E] = (.running, .instr (.js 0xF00E)) := by decide
theorem decodes_jns : fetched [0b101101_00000_00000, 0xF00E] = (.running, .instr (.jns 0xF00E)) := by decide
theorem decodes_jc : fetched [0b101110_00000_00000, 0xF00E] = (.running, .instr (.jc 0xF00E)) := by decide
theorem decodes_jnc : fetched [0b101111_00000_00000, 0xF00E] = (.running, .instr (.jnc 0xF00E)) := by decide
theorem decodes_jo : fetched [0b110000_00000_00000, 0xF00E] = (.running, .instr (.jo 0xF00E)) := by decide
theorem decodes_jno : fetched [0b110001_00000_00000, 0xF00E] = (.running, .instr (.jno 0xF00E)) := by decide
theorem decodes_jdz : fetched [0b110010_00000_00000, 0xF00E] = (.running, .instr (.jdz 0xF00E)) := by decide
theorem decodes_jndz : fetched [0b110011_00000_00000, 0xF00E] = (.running, .instr (.jndz 0xF00E)) := by decide
theorem decodes_hlt : fetched [0b111000_01111_00000] = (.running, .instr (.hlt (.gpr 15))) := by decide

/-! ### Data movement (95_test_vectors.md) -/

/-- V3: `MOV rp, rip`. -/
theorem test_v3_mov : look [.rp] [] (runs [] [] 0x00 0x0100 [0x0630]) = some ([0x0100], [], 0x00, 0x0101) := by decide
/-- V4: `MOV rip, r1`. -/
theorem test_v4_mov :
    look [.gpr 1] [] (runs [(.gpr 1, 0x2000)] [] 0x00 0x0100 [0x0601]) =
      some ([0x2000], [], 0x00, 0x2001) := by decide
/-- V7: `LDI rip, 0x0200`. -/
theorem test_v7_ldi : look [] [] (runs [] [] 0x00 0x0100 [0x0A00, 0x0200]) = some ([], [], 0x00, 0x0202) := by decide
/-- V8: `LDI r1, 0x00AB`. -/
theorem test_v8_ldi :
    look [.gpr 1] [] (runs [] [] 0x00 0xFFFF [0x0820, 0x00AB]) =
      some ([0x00AB], [], 0x00, 0x0001) := by decide
/-- V9: `LD r4, [0x8000]`. -/
theorem test_v9_ld :
    look [.gpr 4] [] (runs [] [(0x8000, 0xCAFE)] 0x1F 0x0100 [0x0C80, 0x8000]) =
      some ([0xCAFE], [], 0x1F, 0x0102) := by decide
/-- V10: `LD r4, [0x0101]`. -/
theorem test_v10_ld :
    look [.gpr 4] [] (runs [] [] 0x00 0x0100 [0x0C80, 0x0101]) =
      some ([0x0101], [], 0x00, 0x0102) := by decide
/-- V12: `ST [0x0100], r4`. -/
theorem test_v12_st :
    look [] [0x0100, 0x0101] (runs [(.gpr 4, 0xE000)] [] 0x00 0x0100 [0x1080, 0x0100]) =
      some ([], [0xE000, 0x0100], 0x00, 0x0102) := by decide
/-- V13: `ST [0x2000], rip`. -/
theorem test_v13_st :
    look [] [0x2000] (runs [] [] 0x00 0x0100 [0x1200, 0x2000]) =
      some ([], [0x0100], 0x00, 0x0102) := by decide
/-- V15: `LDR r1, [rip]`. -/
theorem test_v15_ldr : look [.gpr 1] [] (runs [] [] 0x00 0x0100 [0x1430]) = some ([0x1430], [], 0x00, 0x0101) := by decide
/-- V16: `LDR r1, [r1]`. -/
theorem test_v16_ldr :
    look [.gpr 1] [] (runs [(.gpr 1, 0x4000)] [(0x4000, 0x0042)] 0x00 0x0100 [0x1421]) =
      some ([0x0042], [], 0x00, 0x0101) := by decide
/-- V17: `STR [r2], r3`. -/
theorem test_v17_str :
    look [.gpr 2, .gpr 3] [0xFFFF] (runs [(.gpr 2, 0xFFFF), (.gpr 3, 0x5555)] [] 0x00 0x0100 [0x1843]) =
      some ([0xFFFF, 0x5555], [0x5555], 0x00, 0x0101) := by decide
/-- V18: `STR [r2], r2`. -/
theorem test_v18_str :
    look [] [0x3000] (runs [(.gpr 2, 0x3000)] [] 0x00 0x0100 [0x1842]) =
      some ([], [0x3000], 0x00, 0x0101) := by decide
/-- V19: `STI [0x9000], 0x7777`. -/
theorem test_v19_sti :
    look [] [0x9000] (runs [] [] 0x1F 0x0100 [0x1C00, 0x9000, 0x7777]) =
      some ([], [0x7777], 0x1F, 0x0103) := by decide
/-- V20: `XCHG r1, r2`. -/
theorem test_v20_xchg :
    look [.gpr 1, .gpr 2] [] (runs [(.gpr 1, 0x1111), (.gpr 2, 0x2222)] [] 0x1F 0x0100 [0x2022]) =
      some ([0x2222, 0x1111], [], 0x1F, 0x0101) := by decide
/-- V22: `XCHG rip, r1`. -/
theorem test_v22_xchg :
    look [.gpr 1] [] (runs [(.gpr 1, 0x0300)] [] 0x00 0x0100 [0x2201]) =
      some ([0x0100], [], 0x00, 0x0301) := by decide
/-- V23: `RDF r7`. -/
theorem test_v23_rdf :
    look [.gpr 7] [] (runs [(.gpr 7, 0xFFFF)] [] 0x15 0x0100 [0x24E0]) =
      some ([0x0015], [], 0x15, 0x0101) := by decide
/-- V24: `RDF r7`. -/
theorem test_v24_rdf :
    look [.gpr 7] [] (runs [(.gpr 7, 0xFFFF)] [] 0x00 0x0100 [0x24E0]) =
      some ([0x0000], [], 0x00, 0x0101) := by decide
/-- V25: `WRF r7`. -/
theorem test_v25_wrf :
    look [.gpr 7] [] (runs [(.gpr 7, 0xFFEA)] [] 0x00 0x0100 [0x28E0]) =
      some ([0xFFEA], [], 0x0A, 0x0101) := by decide
/-- V26: `WRF r7`. -/
theorem test_v26_wrf :
    look [.gpr 7] [] (runs [(.gpr 7, 0x0010)] [] 0x0F 0x0100 [0x28E0]) =
      some ([0x0010], [], 0x10, 0x0101) := by decide

/-! ### Arithmetic (95_test_vectors.md) -/

/-- V31: `ADD r0, r1`. -/
theorem test_v31_add :
    look [.gpr 0, .gpr 1] [] (runs [(.gpr 0, 0x8000), (.gpr 1, 0x8000)] [] 0x10 0x0100 [0x4001]) =
      some ([0x0000, 0x8000], [], 0x0B, 0x0101) := by decide
/-- V33: `ADD r0, r1`. -/
theorem test_v33_add :
    look [.gpr 0, .gpr 1] [] (runs [(.gpr 0, 0x8000), (.gpr 1, 0x7FFF)] [] 0x10 0x0100 [0x4001]) =
      some ([0xFFFF, 0x7FFF], [], 0x04, 0x0101) := by decide
/-- V36: `ADC r0, r1`. -/
theorem test_v36_adc :
    look [.gpr 0, .gpr 1] [] (runs [(.gpr 0, 0x7FFF), (.gpr 1, 0x0000)] [] 0x01 0x0100 [0x4401]) =
      some ([0x8000, 0x0000], [], 0x0C, 0x0101) := by decide
/-- V39: `ADC r0, r1`. -/
theorem test_v39_adc :
    look [.gpr 0, .gpr 1] [] (runs [(.gpr 0, 0x0001), (.gpr 1, 0x0002)] [] 0x1E 0x0100 [0x4401]) =
      some ([0x0003, 0x0002], [], 0x00, 0x0101) := by decide
/-- V43: `CMP r0, r1`. -/
theorem test_v43_cmp :
    look [.gpr 0, .gpr 1] [] (runs [(.gpr 0, 0x8000), (.gpr 1, 0x0001)] [] 0x10 0x0100 [0x4801]) =
      some ([0x8000, 0x0001], [], 0x08, 0x0101) := by decide
/-- V44: `CMP r0, r1`. -/
theorem test_v44_cmp :
    look [.gpr 0, .gpr 1] [] (runs [(.gpr 0, 0x7FFF), (.gpr 1, 0xFFFF)] [] 0x10 0x0100 [0x4801]) =
      some ([0x7FFF, 0xFFFF], [], 0x0D, 0x0101) := by decide
/-- V48: `INC r0`. -/
theorem test_v48_inc :
    look [.gpr 0] [] (runs [(.gpr 0, 0x7FFF)] [] 0x10 0x0100 [0x4C00]) =
      some ([0x8000], [], 0x0C, 0x0101) := by decide
/-- V49: `INC rip`. -/
theorem test_v49_inc : look [] [] (runs [] [] 0x00 0x0100 [0x4E00]) = some ([], [], 0x00, 0x0102) := by decide
/-- V51: `DEC r0`. -/
theorem test_v51_dec :
    look [.gpr 0] [] (runs [(.gpr 0, 0x0000)] [] 0x10 0x0100 [0x5000]) =
      some ([0xFFFF], [], 0x05, 0x0101) := by decide
/-- V52: `DEC r0`. -/
theorem test_v52_dec :
    look [.gpr 0] [] (runs [(.gpr 0, 0x8000)] [] 0x10 0x0100 [0x5000]) =
      some ([0x7FFF], [], 0x08, 0x0101) := by decide
/-- V53: `NEG r0`. -/
theorem test_v53_neg :
    look [.gpr 0] [] (runs [(.gpr 0, 0x0000)] [] 0x10 0x0100 [0x5400]) =
      some ([0x0000], [], 0x02, 0x0101) := by decide
/-- V55: `NEG r0`. -/
theorem test_v55_neg :
    look [.gpr 0] [] (runs [(.gpr 0, 0x8000)] [] 0x10 0x0100 [0x5400]) =
      some ([0x8000], [], 0x0D, 0x0101) := by decide
/-- V57: `MUL r0, r1`. -/
theorem test_v57_mul :
    look [.gpr 0, .gpr 1] [] (runs [(.gpr 0, 0x0003), (.gpr 1, 0xFFFE)] [] 0x10 0x0100 [0x5801]) =
      some ([0xFFFA, 0xFFFF], [], 0x04, 0x0101) := by decide
/-- V68: `MUL r0, r0`. -/
theorem test_v68_mul :
    look [.gpr 0] [] (runs [(.gpr 0, 0x0300)] [] 0x00 0x0100 [0x5800]) =
      some ([0x0009], [], 0x0B, 0x0101) := by decide
/-- V70: `DIV r0, r1`. -/
theorem test_v70_div :
    look [.gpr 0, .gpr 1] [] (runs [(.gpr 0, 0xFFF9), (.gpr 1, 0x0002)] [] 0x10 0x0100 [0x5C01]) =
      some ([0xFFFD, 0xFFFF], [], 0x04, 0x0101) := by decide
/-- V78: `DIV r0, r1`. -/
theorem test_v78_div :
    look [.gpr 0, .gpr 1] [] (runs [(.gpr 0, 0x0001), (.gpr 1, 0x0000)] [] 0x0F 0x0100 [0x5C01]) =
      some ([0x0001, 0x0000], [], 0x1F, 0x0101) := by decide

/-! ### Logic (95_test_vectors.md) -/

/-- V84: `AND r0, r1`. -/
theorem test_v84_and :
    look [.gpr 0, .gpr 1] [] (runs [(.gpr 0, 0x8000), (.gpr 1, 0x8000)] [] 0x19 0x0100 [0x6001]) =
      some ([0x8000, 0x8000], [], 0x04, 0x0101) := by decide
/-- V85: `AND r0, r1`. -/
theorem test_v85_and :
    look [.gpr 0, .gpr 1] [] (runs [(.gpr 0, 0x00FF), (.gpr 1, 0xFF00)] [] 0x19 0x0100 [0x6001]) =
      some ([0x0000, 0xFF00], [], 0x02, 0x0101) := by decide
/-- V86: `OR r0, r1`. -/
theorem test_v86_or :
    look [.gpr 0, .gpr 1] [] (runs [(.gpr 0, 0xF0F0), (.gpr 1, 0x0FF0)] [] 0x19 0x0100 [0x6401]) =
      some ([0xFFF0, 0x0FF0], [], 0x04, 0x0101) := by decide
/-- V87: `OR r0, r1`. -/
theorem test_v87_or :
    look [.gpr 0, .gpr 1] [] (runs [(.gpr 0, 0x8000), (.gpr 1, 0x8000)] [] 0x19 0x0100 [0x6401]) =
      some ([0x8000, 0x8000], [], 0x04, 0x0101) := by decide
/-- V90: `XOR r0, r1`. -/
theorem test_v90_xor :
    look [.gpr 0, .gpr 1] [] (runs [(.gpr 0, 0x8000), (.gpr 1, 0x8000)] [] 0x19 0x0100 [0x6801]) =
      some ([0x0000, 0x8000], [], 0x02, 0x0101) := by decide
/-- V91: `XOR r0, r1`. -/
theorem test_v91_xor :
    look [.gpr 0, .gpr 1] [] (runs [(.gpr 0, 0x00FF), (.gpr 1, 0xFF00)] [] 0x19 0x0100 [0x6801]) =
      some ([0xFFFF, 0xFF00], [], 0x04, 0x0101) := by decide
/-- V93: `TEST r0, r1`. -/
theorem test_v93_test :
    look [.gpr 0, .gpr 1] [] (runs [(.gpr 0, 0x8000), (.gpr 1, 0x8000)] [] 0x19 0x0100 [0x7001]) =
      some ([0x8000, 0x8000], [], 0x04, 0x0101) := by decide
/-- V94: `TEST r0, r1`. -/
theorem test_v94_test :
    look [.gpr 0, .gpr 1] [] (runs [(.gpr 0, 0x00FF), (.gpr 1, 0xFF00)] [] 0x19 0x0100 [0x7001]) =
      some ([0x00FF, 0xFF00], [], 0x02, 0x0101) := by decide
/-- V95: `NOT r0`. -/
theorem test_v95_not :
    look [.gpr 0] [] (runs [(.gpr 0, 0x0000)] [] 0x19 0x0100 [0x6C00]) =
      some ([0xFFFF], [], 0x04, 0x0101) := by decide
/-- V97: `NOT r0`. -/
theorem test_v97_not :
    look [.gpr 0] [] (runs [(.gpr 0, 0x7FFF)] [] 0x19 0x0100 [0x6C00]) =
      some ([0x8000], [], 0x04, 0x0101) := by decide

/-! ### Shift and rotate (95_test_vectors.md) -/

/-- V101: `SHL r0`. -/
theorem test_v101_shl :
    look [.gpr 0] [] (runs [(.gpr 0, 0x4000)] [] 0x00 0x0100 [0x8000]) =
      some ([0x8000], [], 0x0C, 0x0101) := by decide
/-- V104: `SHL r0`. -/
theorem test_v104_shl :
    look [.gpr 0] [] (runs [(.gpr 0, 0xC000)] [] 0x00 0x0100 [0x8000]) =
      some ([0x8000], [], 0x05, 0x0101) := by decide
/-- V106: `SHR r0`. -/
theorem test_v106_shr :
    look [.gpr 0] [] (runs [(.gpr 0, 0x8001)] [] 0x00 0x0100 [0x8400]) =
      some ([0x4000], [], 0x01, 0x0101) := by decide
/-- V108: `SHR r0`. -/
theorem test_v108_shr :
    look [.gpr 0] [] (runs [(.gpr 0, 0x0001)] [] 0x00 0x0100 [0x8400]) =
      some ([0x0000], [], 0x03, 0x0101) := by decide
/-- V112: `SAR r0`. -/
theorem test_v112_sar :
    look [.gpr 0] [] (runs [(.gpr 0, 0x8001)] [] 0x00 0x0100 [0x8800]) =
      some ([0xC000], [], 0x05, 0x0101) := by decide
/-- V117: `SAR r0`. -/
theorem test_v117_sar :
    look [.gpr 0] [] (runs [(.gpr 0, 0xFFFF)] [] 0x00 0x0100 [0x8800]) =
      some ([0xFFFF], [], 0x05, 0x0101) := by decide
/-- V119: `ROL r0`. -/
theorem test_v119_rol :
    look [.gpr 0] [] (runs [(.gpr 0, 0x4000)] [] 0x00 0x0100 [0x8C00]) =
      some ([0x8000], [], 0x04, 0x0101) := by decide
/-- V122: `ROL r0`. -/
theorem test_v122_rol :
    look [.gpr 0] [] (runs [(.gpr 0, 0xC000)] [] 0x00 0x0100 [0x8C00]) =
      some ([0x8001], [], 0x04, 0x0101) := by decide
/-- V124: `ROR r0`. -/
theorem test_v124_ror :
    look [.gpr 0] [] (runs [(.gpr 0, 0x8001)] [] 0x00 0x0100 [0x9000]) =
      some ([0xC000], [], 0x04, 0x0101) := by decide
/-- V126: `ROR r0`. -/
theorem test_v126_ror :
    look [.gpr 0] [] (runs [(.gpr 0, 0x0001)] [] 0x00 0x0100 [0x9000]) =
      some ([0x8000], [], 0x04, 0x0101) := by decide
/-- V131: `RCL r0`. -/
theorem test_v131_rcl :
    look [.gpr 0] [] (runs [(.gpr 0, 0x8001)] [] 0x00 0x0100 [0x9400]) =
      some ([0x0002], [], 0x01, 0x0101) := by decide
/-- V135: `RCL r0`. -/
theorem test_v135_rcl :
    look [.gpr 0] [] (runs [(.gpr 0, 0x0000)] [] 0x01 0x0100 [0x9400]) =
      some ([0x0001], [], 0x00, 0x0101) := by decide
/-- V139: `RCR r0`. -/
theorem test_v139_rcr :
    look [.gpr 0] [] (runs [(.gpr 0, 0x8001)] [] 0x01 0x0100 [0x9800]) =
      some ([0xC000], [], 0x05, 0x0101) := by decide
/-- V142: `RCR r0`. -/
theorem test_v142_rcr :
    look [.gpr 0] [] (runs [(.gpr 0, 0x0000)] [] 0x01 0x0100 [0x9800]) =
      some ([0x8000], [], 0x04, 0x0101) := by decide

/-! ### Control flow (95_test_vectors.md) -/

/-- V146: `JMP 0x0100`. -/
theorem test_v146_jmp : look [] [] (runs [] [] 0x00 0x0100 [0xA000, 0x0100]) = some ([], [], 0x00, 0x0100) := by decide
/-- V147: `JMP 0x0000`. -/
theorem test_v147_jmp : look [] [] (runs [] [] 0x00 0xFFFF [0xA000, 0x0000]) = some ([], [], 0x00, 0x0000) := by decide
/-- V149: `JMPR rip`. -/
theorem test_v149_jmpr : look [] [] (runs [] [] 0x00 0x0100 [0xA600]) = some ([], [], 0x00, 0x0100) := by decide
/-- V150: `JMPR rp`. -/
theorem test_v150_jmpr : look [] [] (runs [(.rp, 0xFFFF)] [] 0x00 0x0100 [0xA620]) = some ([], [], 0x00, 0xFFFF) := by decide
/-- V151: `JZ 0x0400`. -/
theorem test_v151_jz : look [] [] (runs [] [] 0x02 0x0100 [0xA800, 0x0400]) = some ([], [], 0x02, 0x0400) := by decide
/-- V152: `JZ 0x0400`. -/
theorem test_v152_jz : look [] [] (runs [] [] 0x1D 0x0100 [0xA800, 0x0400]) = some ([], [], 0x1D, 0x0102) := by decide
/-- V153: `JNZ 0x0400`. -/
theorem test_v153_jnz : look [] [] (runs [] [] 0x1D 0x0100 [0xAC00, 0x0400]) = some ([], [], 0x1D, 0x0400) := by decide
/-- V154: `JNZ 0x0400`. -/
theorem test_v154_jnz : look [] [] (runs [] [] 0x02 0x0100 [0xAC00, 0x0400]) = some ([], [], 0x02, 0x0102) := by decide
/-- V155: `JS 0x0400`. -/
theorem test_v155_js : look [] [] (runs [] [] 0x04 0x0100 [0xB000, 0x0400]) = some ([], [], 0x04, 0x0400) := by decide
/-- V156: `JS 0x0400`. -/
theorem test_v156_js : look [] [] (runs [] [] 0x1B 0x0100 [0xB000, 0x0400]) = some ([], [], 0x1B, 0x0102) := by decide
/-- V157: `JNS 0x0400`. -/
theorem test_v157_jns : look [] [] (runs [] [] 0x1B 0x0100 [0xB400, 0x0400]) = some ([], [], 0x1B, 0x0400) := by decide
/-- V158: `JNS 0x0400`. -/
theorem test_v158_jns : look [] [] (runs [] [] 0x04 0x0100 [0xB400, 0x0400]) = some ([], [], 0x04, 0x0102) := by decide
/-- V159: `JC 0x0400`. -/
theorem test_v159_jc : look [] [] (runs [] [] 0x01 0x0100 [0xB800, 0x0400]) = some ([], [], 0x01, 0x0400) := by decide
/-- V160: `JC 0x0400`. -/
theorem test_v160_jc : look [] [] (runs [] [] 0x1E 0x0100 [0xB800, 0x0400]) = some ([], [], 0x1E, 0x0102) := by decide
/-- V161: `JNC 0x0400`. -/
theorem test_v161_jnc : look [] [] (runs [] [] 0x1E 0x0100 [0xBC00, 0x0400]) = some ([], [], 0x1E, 0x0400) := by decide
/-- V162: `JNC 0x0400`. -/
theorem test_v162_jnc : look [] [] (runs [] [] 0x01 0x0100 [0xBC00, 0x0400]) = some ([], [], 0x01, 0x0102) := by decide
/-- V163: `JO 0x0400`. -/
theorem test_v163_jo : look [] [] (runs [] [] 0x08 0x0100 [0xC000, 0x0400]) = some ([], [], 0x08, 0x0400) := by decide
/-- V164: `JO 0x0400`. -/
theorem test_v164_jo : look [] [] (runs [] [] 0x17 0x0100 [0xC000, 0x0400]) = some ([], [], 0x17, 0x0102) := by decide
/-- V165: `JNO 0x0400`. -/
theorem test_v165_jno : look [] [] (runs [] [] 0x17 0x0100 [0xC400, 0x0400]) = some ([], [], 0x17, 0x0400) := by decide
/-- V166: `JNO 0x0400`. -/
theorem test_v166_jno : look [] [] (runs [] [] 0x08 0x0100 [0xC400, 0x0400]) = some ([], [], 0x08, 0x0102) := by decide
/-- V167: `JDZ 0x0400`. -/
theorem test_v167_jdz : look [] [] (runs [] [] 0x10 0x0100 [0xC800, 0x0400]) = some ([], [], 0x10, 0x0400) := by decide
/-- V168: `JDZ 0x0400`. -/
theorem test_v168_jdz : look [] [] (runs [] [] 0x0F 0x0100 [0xC800, 0x0400]) = some ([], [], 0x0F, 0x0102) := by decide
/-- V169: `JNDZ 0x0400`. -/
theorem test_v169_jndz : look [] [] (runs [] [] 0x0F 0x0100 [0xCC00, 0x0400]) = some ([], [], 0x0F, 0x0400) := by decide
/-- V170: `JNDZ 0x0400`. -/
theorem test_v170_jndz : look [] [] (runs [] [] 0x10 0x0100 [0xCC00, 0x0400]) = some ([], [], 0x10, 0x0102) := by decide

/-! ### Halt (95_test_vectors.md) -/

/-- V174: `HLT rip`. -/
theorem test_v174_hlt :
    ((runs [] [] 0x00 0x0100 [0xE200]).map fun t => (t.status, t.result, t.flags, t.rip)) =
      some (.halted, 0x0100, 0x00, 0x0101) := by decide
/-- V176: `HLT r0`. -/
theorem test_v176_hlt :
    ((runs [(.gpr 0, 0x0001)] [] 0x00 0xFFFF [0xE000]).map fun t => (t.status, t.result, t.flags, t.rip)) =
      some (.halted, 0x0001, 0x00, 0x0000) := by decide

/-! ### Faults (95_test_vectors.md section 8) -/

/-- The fault record and what a fault leaves: status, `pc`, flags, one register, one cell. -/
def faults (words : List Word) : Option (FaultRecord × Status × Word × BitVec 5 × Word × Word) :=
  (runs [(.gpr 0, 0x1111)] [(0x9000, 0x5A5A)] 0x0A 0x0100 words).map fun t =>
    (t.fault, t.status, t.rip, t.flags, readReg t (.gpr 0), memRead t 0x9000)

/-- V178: the all-ones Word. -/
theorem test_v178_unassigned :
    faults [0xFFFF] = some (⟨.invalidOpcode, 0x0100, 0xFFFF, 0⟩, .faulted, 0x0100, 0x0A, 0x1111, 0x5A5A) := by decide
/-- V185: with both fields above 17, `ra` is reported. -/
theorem test_v185_ra_first :
    faults [0x069F] = some (⟨.invalidRegister, 0x0100, 0x069F, 20⟩, .faulted, 0x0100, 0x0A, 0x1111, 0x5A5A) := by decide
/-- V188: STI with a reserved field; no store happens. -/
theorem test_v188_no_store :
    faults [0x1C01, 0x9000, 0x7777] = some (⟨.invalidOpcode, 0x0100, 0x1C01, 0⟩, .faulted, 0x0100, 0x0A, 0x1111, 0x5A5A) := by
  decide
/-- V189: HLT with `ra` = 18; the core does not halt. -/
theorem test_v189_no_halt :
    faults [0xE240] = some (⟨.invalidRegister, 0x0100, 0xE240, 18⟩, .faulted, 0x0100, 0x0A, 0x1111, 0x5A5A) := by decide
/-- V190: the reserved-field check comes before the register check. -/
theorem test_v190_reserved_first :
    faults [0x4E41] = some (⟨.invalidOpcode, 0x0100, 0x4E41, 0⟩, .faulted, 0x0100, 0x0A, 0x1111, 0x5A5A) := by decide
/-- V194: a conditional jump that would not be taken still faults. -/
theorem test_v194_not_taken_faults :
    faults [0xA81F, 0x0400] = some (⟨.invalidOpcode, 0x0100, 0xA81F, 0⟩, .faulted, 0x0100, 0x0A, 0x1111, 0x5A5A) := by decide

/-! ### Well-formed first words: an ill-formed word for each check, from 95_test_vectors.md section 8 -/

/-- V177, V179, V182: unassigned opcodes select no row. -/
theorem test_wellFormed_unassigned :
    selectsSomeRow 0x0000 = false ∧ selectsSomeRow 0x2C00 = false ∧ selectsSomeRow 0xD000 = false := by decide
/-- V186, V187, V188: a non-zero reserved field selects no row. -/
theorem test_wellFormed_reserved :
    selectsSomeRow 0x4C01 = false ∧ selectsSomeRow 0xA020 = false ∧ selectsSomeRow 0x1C01 = false := by decide
/-- V183, V189: `ra` = 18 selects a row but is no well-formed word. -/
theorem test_wellFormed_ra :
    selectsSomeRow 0x0640 = true ∧ wellFormedFirstWord 0x0640 = false ∧ wellFormedFirstWord 0xE240 = false := by decide
/-- V184, V192: `rb` above 17. -/
theorem test_wellFormed_rb :
    selectsSomeRow 0x041F = true ∧ wellFormedFirstWord 0x041F = false ∧ wellFormedFirstWord 0x2032 = false := by decide
/-- The boundary: both fields 17 and both fields 16 (section 8, last paragraph). -/
theorem test_wellFormed_boundary : wellFormedFirstWord 0x0631 = true ∧ wellFormedFirstWord 0x0610 = true := by decide
/-- No first word selects two rows: 30_encoding.md R49 with the masks of R44. -/
theorem test_rows_disjoint : opcodeTable.Pairwise (fun r q => r.bits &&& q.mask ≠ q.bits &&& r.mask) := by decide

/-! ### The host's view of an instruction's bits -/

/-- V19's three Words as one number, and none for V177's. -/
theorem test_decodeTableWord :
    decodeTableWord 48 0x777790001C00 = some (.sti 0x9000 0x7777) ∧ decodeTableWord 16 0x0800 = some (.ldi (.gpr 0) 0) ∧
      decodeTableWord 16 0x0000 = none ∧ decodeTableWord 16 0x0640 = none := by decide
/-- The placed instruction is the next to run, from reset. -/
theorem test_withFetchWord :
    look [] [0x9000] (after (step (State.reset.withFetchWord 48 0x777790001C00))) = some ([], [0x7777], 0x00, 0x0003) := by
  decide

/-! ### Host events (95_test_vectors.md section 9) -/

/-- H3: the first four bytes of an image, low byte first. -/
theorem test_h3_little_endian :
    ((imageMemory 0 [0x00, 0x08, 0x05, 0x00]).readWord 0x0000, (imageMemory 0 [0x00, 0x08, 0x05, 0x00]).readWord 0x0001) =
      (0x0800, 0x0005) := by decide
/-- H4: an image of another size is refused. -/
theorem test_h4_wrong_size : hostLoad [0x00] State.reset = .refused .memoryLoadError := rfl
/-- H6: start is ignored in Halted. -/
theorem test_h6_start_ignored : hostStart { State.reset with status := .halted } = { State.reset with status := .halted } := rfl
/-- The outputs are given only in the status that makes them valid (70_reset_and_hazards.md R135). -/
theorem test_outputs :
    (hostResult { State.reset with status := .halted, result := 8 }, hostResult State.reset, hostFault State.reset,
      isRunning State.reset) = (some 8, none, none, false) := by decide

/-! ### Assembler -/

/-- P2's jump: a label is the address of the next Word emitted; `.org` moves it. -/
theorem test_label :
    lineWords (labelTable 0x0000 [.org 0x0005, .instr (.jdz 0) [.label "err"], .word [.num 1], .label "err"])
      (.instr (.jdz 0) [.label "err"]) = some [0xC800, 0x0008] := by decide
/-- Negative numbers, and the two ends of the range (30_encoding.md R52). -/
theorem test_numbers :
    numberWord (-1) = some 0xFFFF ∧ numberWord (-32768) = some 0x8000 ∧ numberWord 65535 = some 0xFFFF ∧
      numberWord (-32769) = none ∧ numberWord 65536 = none := by decide
/-- P1's first instruction and its last. -/
theorem test_assemble :
    (assemble [.instr (.ldi (.gpr 0) 0) [.num 5], .instr (.hlt (.gpr 0)) []]).map (fun m =>
      (m.readWord 0, m.readWord 1, m.readWord 2)) = some (0x0800, 0x0005, 0xE000) := by decide

/-! ### Witnesses of the obligations' hypotheses -/

/-- EncodeOfDecodeIsTheWords, LengthFollowsFromOpcodeAlone: one word of each length decodes; the two ends of the opcodes that
are two Words long, and their neighbours. -/
theorem witness_decode_lengths :
    decode 0x0465 0 0 = .instr (.mov (.gpr 3) (.gpr 5)) ∧ decode 0x0840 0x1234 0 = .instr (.ldi (.gpr 2) 0x1234) ∧
    decode 0x1080 0x8000 0 = .instr (.st 0x8000 (.gpr 4)) ∧ decode 0x1431 0 0 = .instr (.ldr (.gpr 1) .rp) ∧
    decode 0x1C00 0x9000 0x7777 = .instr (.sti 0x9000 0x7777) ∧ decode 0xA000 0x0400 0 = .instr (.jmp 0x0400) ∧
    decode 0xA520 0 0 = .instr (.jmpr (.gpr 9)) ∧ decode 0xA800 0x0400 0 = .instr (.jz 0x0400) ∧
    decode 0xCC00 0x0400 0 = .instr (.jndz 0x0400) := by decide

/-- DecodeAgreesWithOpcodeTable, DecodeChecksInFixedOrder: each clause at the boundary values of its fields: opcodes 0x00 and
0x3F, reserved fields 1 and 31, register fields 18 and 31, 17 and 0. -/
theorem witness_decode_checks :
    decode 0x0000 0 0 = .invalidOpcode ∧ decode 0xFFFF 0 0 = .invalidOpcode ∧
    decode 0xA020 0 0 = .invalidOpcode ∧ decode 0xA81F 0 0 = .invalidOpcode ∧ decode 0x4C01 0 0 = .invalidOpcode ∧
    decode 0x0640 0 0 = .invalidRegister 18 ∧ decode 0x07E0 0 0 = .invalidRegister 31 ∧
    decode 0x0412 0 0 = .invalidRegister 18 ∧ decode 0x041F 0 0 = .invalidRegister 31 ∧
    decode 0x0631 0 0 = .instr (.mov .rp .rp) ∧ decode 0x0400 0 0 = .instr (.mov (.gpr 0) (.gpr 0)) := by decide

/-- Every encoding statement: `ra` and `rb` at 17 and at 18, for a word of format RR, of R and of A. -/
theorem witness_encodings :
    decode (BitVec.ofNat 16 (0x10 * 1024 + 17 * 32 + 17)) 0 0 = .instr (.add .rp .rp) ∧
    decode (BitVec.ofNat 16 (0x10 * 1024 + 18 * 32 + 17)) 0 0 = .invalidRegister 18 ∧
    decode (BitVec.ofNat 16 (0x10 * 1024 + 17 * 32 + 18)) 0 0 = .invalidRegister 18 ∧
    decode (BitVec.ofNat 16 (0x13 * 1024 + 17 * 32 + 0)) 0 0 = .instr (.inc .rp) ∧
    decode (BitVec.ofNat 16 (0x13 * 1024 + 18 * 32 + 0)) 0 0 = .invalidRegister 18 ∧
    decode (BitVec.ofNat 16 (0x13 * 1024 + 17 * 32 + 1)) 0 0 = .invalidOpcode ∧
    decode (BitVec.ofNat 16 (0x28 * 1024 + 0 * 32 + 0)) 7 0 = .instr (.jmp 7) ∧
    decode (BitVec.ofNat 16 (0x28 * 1024 + 1 * 32 + 0)) 7 0 = .invalidOpcode := by decide

/-- A Running state at `ST [0x0102], r4`, which stores over the Word that the next fetch reads. -/
def atStore : State := placed [(.gpr 4, 0xE000)] [] 0x1F 0x0100 [0x1080, 0x0102]

/-- StepRunsTheDecodedInstruction, EveryStepAnswersANextState, NonJumpsAdvanceByTheirLength (`rip` no destination),
NextFetchSeesTheStore (the stored cell is the next instruction's), HandlersWriteOnlyTheirCell (a storing form). -/
theorem witness_running_instruction :
    atStore.status = .running ∧ decodeAt atStore = .instr (.st 0x0102 (.gpr 4)) ∧
    exec (.st 0x0102 (.gpr 4)) atStore = .next (memWrite atStore 0x0102 0xE000) ∧
    storedCell atStore (.st 0x0102 (.gpr 4)) = some (0x0102, 0xE000) ∧
    Reg.rip ∉ destinations (.st 0x0102 (.gpr 4)) ∧
    (after (step atStore)).map (fun t => (t.rip, fetchWord t 0)) = some (0x0102, 0xE000) := by
  refine ⟨by decide, by decide, rfl, by decide, by decide, by decide⟩

/-- NonJumpsAdvanceByTheirLength (`rip` a destination), HandlersWriteOnlyTheirDestinations, HandlersWriteOnlyTheirCell (a form
that stores nothing), OtherInstructionsLeaveTheFlags (first clause), OnlyHaltAndFaultsEndARun (first clause): V4. -/
theorem witness_rip_destination :
    let s := placed [(.gpr 1, 0x2000)] [] 0x00 0x0100 [0x0601]
    s.status = .running ∧ decodeAt s = .instr (.mov .rip (.gpr 1)) ∧
    exec (.mov .rip (.gpr 1)) s = .next { s with rip := 0x2000 } ∧ Reg.rip ∈ destinations (.mov .rip (.gpr 1)) ∧
    Reg.rp ∉ destinations (.mov .rip (.gpr 1)) ∧ storedCell s (.mov .rip (.gpr 1)) = none ∧
    leavesFlags (.mov .rip (.gpr 1)) = true ∧ (∀ rs, Instr.mov .rip (.gpr 1) ≠ .hlt rs) := by
  refine ⟨by decide, by decide, rfl, by decide, by decide, by decide, by decide, fun rs h => by cases h⟩

/-- A Running state at a word of an unassigned opcode: V177. -/
def atUnassigned : State := placed [] [] 0x0A 0x0100 [0x0000]

/-- A Running state at MOV with `ra` = 18: V183. -/
def atBadRegister : State := placed [] [] 0x0A 0x0100 [0x0640]

/-- OtherInstructionsLeaveTheFlags (second clause), LengthFollowsFromOpcodeAlone (second clause), OnlyHaltAndFaultsEndARun
(Faulted), StatusChangesOnlyByTheListedTransitions (Running to Faulted). -/
theorem witness_decode_faults :
    atUnassigned.status = .running ∧ decodeAt atUnassigned = .invalidOpcode ∧ (∀ i, decodeAt atUnassigned ≠ .instr i) ∧
    (after (step atUnassigned)).map (·.status) = some .faulted ∧
    atBadRegister.status = .running ∧ decodeAt atBadRegister = .invalidRegister 18 := by
  have h : decodeAt atUnassigned = .invalidOpcode := by decide
  refine ⟨by decide, h, fun i e => ?_, by decide, by decide, by decide⟩
  rw [h] at e
  cases e

/-- StepTakesTheFirstFailingCheck: each check failing, at the boundary values of its fields, and none failing. -/
theorem witness_first_failing_check :
    [0x0000, 0xFFFF, 0xA020, 0xA81F, 0x4C01, 0x0640, 0x07E0, 0x0412, 0x041F, 0x0631].map
      (fun w => (runs [] [] 0x0A 0x0100 [w]).map fun t => (t.fault.cause, t.fault.reg)) =
    [some (.invalidOpcode, 0), some (.invalidOpcode, 0), some (.invalidOpcode, 0), some (.invalidOpcode, 0),
      some (.invalidOpcode, 0), some (.invalidRegister, 18), some (.invalidRegister, 31), some (.invalidRegister, 18),
      some (.invalidRegister, 31), some (.none, 0)] := by decide

/-- StatusChangesOnlyByTheListedTransitions: Running to Halted, Halted to Ready, Ready to Running. -/
theorem witness_transitions :
    ((after (step (placed [] [] 0 0x0100 [0xE000]))).map (·.status), (after (hostEvent .reset atStore)).map (·.status),
      (after (hostEvent .start State.reset)).map (·.status)) = (some .halted, some .ready, some .running) := by decide

/-- A Ready state after an image whose first byte is 0x08. -/
def loaded : State := { State.reset with mem := imageMemory 0 [0x08] }

/-- ResetGivesEveryStatedValue (first clause): a set-entry in a Ready state whose memory a load has changed. -/
theorem witness_before_start :
    loaded.status = .ready ∧ loaded ≠ State.reset ∧ HostEvent.setEntry 0x0004 ≠ .reset ∧ HostEvent.setEntry 0x0004 ≠ .start ∧
      hostEvent (.setEntry 0x0004) loaded = .next { loaded with rip := 0x0004 } :=
  ⟨rfl, by decide, by decide, by decide, rfl⟩

/-- NothingExecutesOutsideRunning: a state of each of the three statuses. -/
theorem witness_not_running :
    State.reset.status = .ready ∧ (after (step (placed [] [] 0 0x0100 [0xE000]))).map (·.status) = some .halted ∧
      (after (step atUnassigned)).map (·.status) = some .faulted := by decide

/-- A Halted state with a result. -/
def atHalted : State := { atStore with status := .halted, result := 0x0007 }

/-- The Faulted states that the two fault witnesses step to. -/
def atFaultedOpcode : State := { atUnassigned with status := .faulted, fault := ⟨.invalidOpcode, 0x0100, 0x0000, 0⟩ }

/-- The same for InvalidRegister. -/
def atFaultedRegister : State := { atBadRegister with status := .faulted, fault := ⟨.invalidRegister, 0x0100, 0x0640, 18⟩ }

/-- StepKeepsTheInvariant: a state of each status has the invariant, and a step from one answers a next state. -/
theorem witness_invariant :
    Invariant State.reset ∧ Invariant atStore ∧ Invariant atHalted ∧ Invariant atFaultedOpcode ∧ Invariant atFaultedRegister ∧
      (after (step atStore)).isSome = true := by
  refine ⟨?_, ?_, ?_, ?_, ?_, by decide⟩ <;> (unfold Invariant; decide)

/-- ReachableStatesHaveTheInvariant: a state reached by a host event and a step, Faulted (H2). -/
theorem witness_reachable : Reachable (takeFault .invalidOpcode 0 (hostStart State.reset)) :=
  .step (s := hostStart State.reset) (.event .start .reset rfl) rfl

/-- PseudoInstructionsNameRealOnes: NOP where the loop fetches it. -/
theorem witness_nop : fetched [0x0400] = (.running, .instr (expandPseudo .nop)) := by decide

/-- JumpsContinueExactlyAtTheirTarget: JMP, JMPR, and a conditional jump with its flag as wanted and not (V145, V148, V151,
V152). -/
theorem witness_jumps :
    (fetched [0xA000, 0x0400] = (.running, .instr (.jmp 0x0400)) ∧ fetched [0xA520] = (.running, .instr (.jmpr (.gpr 9)))) ∧
    decodeAt (placed [] [] 0x02 0x0100 [0xA800, 0x0400]) = .instr (.jz 0x0400) ∧
    getFlag (placed [] [] 0x02 0x0100 [0xA800, 0x0400]) .zero = true ∧
    decodeAt (placed [] [] 0x1D 0x0100 [0xA800, 0x0400]) = .instr (.jz 0x0400) ∧
    getFlag (placed [] [] 0x1D 0x0100 [0xA800, 0x0400]) .zero = false := by decide

/-- DivideByZeroFlagHasTwoSources: `F.D` goes from 0 to 1 by a DIV with a zero divisor (V79) and by a WRF (V26). -/
theorem witness_divide_by_zero :
    (getFlag (placed [(.gpr 0, 1)] [] 0x00 0x0100 [0x5C01]) .divideByZero = false ∧
      (runs [(.gpr 0, 1)] [] 0x00 0x0100 [0x5C01]).map (getFlag · .divideByZero) = some true) ∧
    getFlag (placed [(.gpr 7, 0x0010)] [] 0x0F 0x0100 [0x28E0]) .divideByZero = false ∧
      (runs [(.gpr 7, 0x0010)] [] 0x0F 0x0100 [0x28E0]).map (getFlag · .divideByZero) = some true := by decide

/-- OnlyHaltAndFaultsEndARun: a step from Running to Halted. -/
theorem witness_halts :
    (placed [] [] 0 0x0100 [0xE000]).status = .running ∧
      (runs [] [] 0 0x0100 [0xE000]).map (fun t => decide (t.status ≠ .running)) = some true := by decide

/-- CmpOrdersItsOperands: CMP answers a next state; both sides of each clause occur (V42 equal; V44 unsigned below and signed
above; V43 the reverse). -/
theorem witness_cmp :
    (after (exec (.cmp (.gpr 0) (.gpr 1)) (placed [(.gpr 0, 5), (.gpr 1, 5)] [] 0 0 []))).map (·.flags) = some 0x02 ∧
    (after (exec (.cmp (.gpr 0) (.gpr 1)) (placed [(.gpr 0, 0x7FFF), (.gpr 1, 0xFFFF)] [] 0 0 []))).map (·.flags) = some 0x0D ∧
    (after (exec (.cmp (.gpr 0) (.gpr 1)) (placed [(.gpr 0, 0x8000), (.gpr 1, 1)] [] 0 0 []))).map (·.flags) = some 0x08 := by
  decide

/-- RightRotatesUndoLeftRotates: ROL and RCL answer a next state. -/
theorem witness_rotates :
    (after (exec (.rol (.gpr 0)) (placed [(.gpr 0, 0x8001)] [] 0 0 []))).map (readReg · (.gpr 0)) = some 0x0003 ∧
      (after (exec (.rcl (.gpr 0)) (placed [(.gpr 0, 0x8001)] [] 0 0 []))).map (readReg · (.gpr 0)) = some 0x0002 := by decide

/-- MulWritesTheDoubleWidthProduct, DivWritesQuotientAndRemainder: two registers and one register named twice; a zero divisor,
a divisor that is not, and the overflow (V58, V68, V74, V81, V82). -/
theorem witness_two_results :
    (after (exec (.mul (.gpr 0) (.gpr 1)) (placed [(.gpr 0, 0x4000), (.gpr 1, 2)] [] 0 0 []))).map
      (fun t => (readReg t (.gpr 0), readReg t (.gpr 1), t.flags)) = some (0x8000, 0x0000, 0x0D) ∧
    (after (exec (.mul (.gpr 0) (.gpr 0)) (placed [(.gpr 0, 0x0300)] [] 0 0 []))).map (readReg · (.gpr 0)) = some 0x0009 ∧
    (after (exec (.div (.gpr 0) (.gpr 1)) (placed [(.gpr 0, 0x8000), (.gpr 1, 0xFFFF)] [] 0 0 []))).map
      (fun t => (readReg t (.gpr 0), readReg t (.gpr 1), t.flags)) = some (0x8000, 0x0000, 0x0D) ∧
    (after (exec (.div (.gpr 0) (.gpr 0)) (placed [(.gpr 0, 7)] [] 0 0 []))).map (readReg · (.gpr 0)) = some 0x0000 ∧
    (after (exec (.div (.gpr 0) (.gpr 0)) (placed [] [] 0x05 0 []))).map (·.flags) = some 0x15 := by decide

/-- LoadReplacesMemoryOrNothing, BootReachesTheFirstFetch: Ready, an image of exactly the required size, which loads, and one a
byte short of it. -/
theorem witness_image :
    State.reset.status = .ready ∧ (List.replicate 131072 (0x5A : Byte)).length = 131072 ∧
      (∃ t, hostLoad (List.replicate 131072 (0x5A : Byte)) State.reset = .next t) ∧
      (List.replicate 131071 (0x5A : Byte)).length ≠ 131072 :=
  ⟨rfl, List.length_replicate, ⟨_, by rw [hostLoad, if_pos (show State.reset.status = .ready from rfl), if_pos List.length_replicate]⟩, by
    rw [List.length_replicate]; decide⟩

/-- EntryAndStartActOnlyInReady: Ready, and another status. -/
theorem witness_ready : State.reset.status = .ready ∧ atStore.status ≠ .ready := by decide

end Sys2Proof.Tests
end

section
/-! SUPPORT. What a handler can do, said once for all 43 instructions (40_execution_loop.md R61): each ends in one of ten ways,
and what the tables of Safety.lean list for it stands beside the way it ends. -/

namespace Sys2Proof.Machine

/-- `Effect s i t`: the state `t` that the handler of `i` leaves from `s`, by the operation the handler ends in. -/
inductive Effect (s : State) : Instr → State → Prop where
  /-- One register is written: data movement, JMP and JMPR. -/
  | write {i : Instr} {rd : Reg} {v : Word} (hd : destinations i = [rd]) (hf : leavesFlags i = true)
      (hc : storedCell s i = none) : Effect s i (writeReg s rd v)
  /-- One cell is written: ST, STR, STI. -/
  | cell {i : Instr} {dst : MemOperand} {v : Word} (hd : destinations i = []) (hf : leavesFlags i = true)
      (hc : storedCell s i = some (effectiveAddress s dst, v)) : Effect s i (store dst v s)
  /-- XCHG (41_data_movement.md R78). -/
  | exchange (ra rb : Reg) : Effect s (.xchg ra rb) (writeReg (writeReg s ra (readReg s rb)) rb (readReg s ra))
  /-- WRF (R80). -/
  | writeFlags (rs : Reg) : Effect s (.wrf rs) { s with flags := (readReg s rs).extractLsb' 0 5 }
  /-- One register is written and the flag rule called: arithmetic, logic, shifts and rotates with one result. -/
  | result {i : Instr} {rd : Reg} {res : Word} {c v : Bool} (hd : destinations i = [rd]) (hf : leavesFlags i = false)
      (hc : storedCell s i = none) : Effect s i (writeResult rd res c v s)
  /-- Two registers are written and the flag rule called: MUL, and DIV by a divisor that is not zero. -/
  | results {i : Instr} {rd rs : Reg} {x y : Word} {c v : Bool} (hd : destinations i = [rd, rs])
      (hf : leavesFlags i = false) (hc : storedCell s i = none) : Effect s i (writeResults rd x rs y c v s)
  /-- The flag rule alone: CMP and TEST. -/
  | compare {i : Instr} {res : Word} {c v : Bool} (hd : destinations i = []) (hf : leavesFlags i = false)
      (hc : storedCell s i = none) : Effect s i (setFlags res c v s)
  /-- DIV by zero (42_arithmetic.md R89). -/
  | divideByZero {rd rs : Reg} (hz : readReg s rs = 0) : Effect s (.div rd rs) (setDivideByZero s)
  /-- A conditional jump. -/
  | jump {i : Instr} {f : Flag} {want : Bool} {addr : Word} (hd : destinations i = [.rip]) (hf : leavesFlags i = true)
      (hc : storedCell s i = none) : Effect s i (jumpIf f want addr s)
  /-- HLT (46_halt.md R119). -/
  | halt (rs : Reg) : Effect s (.hlt rs) { s with result := readReg s rs, status := .halted }

/-- Every handler answers a next state, and it is one of the ten effects. -/
theorem exec_effect (i : Instr) (s : State) : ∃ t, exec i s = .next t ∧ Effect s i t := by
  cases i with
  | mov | ldi | ld | ldr | rdf | jmp | jmpr => exact ⟨_, rfl, .write rfl rfl rfl⟩
  | st addr => exact ⟨_, rfl, .cell (dst := .absolute addr) rfl rfl rfl⟩
  | str rd => exact ⟨_, rfl, .cell (dst := .register rd) rfl rfl rfl⟩
  | sti addr => exact ⟨_, rfl, .cell (dst := .absolute addr) rfl rfl rfl⟩
  | xchg ra rb => exact ⟨_, rfl, .exchange ra rb⟩
  | wrf rs => exact ⟨_, rfl, .writeFlags rs⟩
  | add | adc | inc | dec | neg | and | or | xor | not | shl | shr | sar | rol | ror | rcl | rcr =>
    exact ⟨_, rfl, .result rfl rfl rfl⟩
  | cmp | test => exact ⟨_, rfl, .compare rfl rfl rfl⟩
  | mul => exact ⟨_, rfl, .results rfl rfl rfl⟩
  | div rd rs =>
    by_cases hz : (readReg s rs).toInt = 0
    · exact ⟨_, if_pos hz, .divideByZero (BitVec.eq_of_toInt_eq hz)⟩
    · exact ⟨_, if_neg hz, .results rfl rfl rfl⟩
  | jz | jnz | js | jns | jc | jnc | jo | jno | jdz | jndz => exact ⟨_, rfl, .jump rfl rfl rfl⟩
  | hlt rs => exact ⟨_, rfl, .halt rs⟩

/-- Inversion of a handler's answer. -/
theorem effect_of_exec {i : Instr} {s t : State} (h : exec i s = .next t) : Effect s i t := by
  obtain ⟨u, hu, he⟩ := exec_effect i s
  obtain rfl : u = t := Host.Outcome.next.inj (hu.symm.trans h)
  exact he

/-! ### The frame of an effect -/

theorem Effect.readReg_of_not_mem {i : Instr} {s t : State} (h : Effect s i t) {r : Reg} (hr : r ∉ destinations i) :
    readReg t r = readReg s r := by
  cases h with
  | write hd | result hd | results hd | jump hd =>
    simp only [hd, List.mem_cons, List.not_mem_nil, or_false, not_or] at hr
    simp [readReg_writeReg, readReg_jumpIf, hr]
  | exchange ra rb =>
    simp only [destinations, List.mem_cons, List.not_mem_nil, or_false, not_or] at hr
    simp [readReg_writeReg, hr]
  | cell | compare | divideByZero => simp [store]
  | writeFlags | halt => cases r <;> rfl

/-- The instructions of 10_state.md R15 end in no effect that writes `F`. -/
theorem Effect.flags_of_leavesFlags {i : Instr} {s t : State} (h : Effect s i t) (hl : leavesFlags i = true) :
    t.flags = s.flags := by
  cases h with
  | write | exchange | jump => simp
  | cell => simp [store]
  | halt => rfl
  | result _ hf | results _ hf | compare _ hf => exact absurd (hf.symm.trans hl) Bool.false_ne_true
  | writeFlags | divideByZero => exact absurd hl Bool.false_ne_true

/-! ### `F.D` -/

theorem getFlag_congr {s t : State} (h : t.flags = s.flags) (f : Flag) : getFlag t f = getFlag s f := by
  simp only [getFlag, h]

/-- Bit 4 of WRF's register becomes `F.D` (10_state.md R14, 41_data_movement.md R80). -/
theorem getFlag_divideByZero_of_flags_eq {t : State} {v : Word} (h : t.flags = v.extractLsb' 0 5) :
    getFlag t .divideByZero = v.getLsbD 4 := by
  simp [getFlag, h, Flag.bit]

/-- The flag rule clears `F.D` (10_state.md R16), so only two effects leave it set where it was clear. -/
theorem Effect.divideByZero_source {i : Instr} {s t : State} (h : Effect s i t) (hs : getFlag s .divideByZero = false)
    (ht : getFlag t .divideByZero = true) :
    (∃ rd rs, i = .div rd rs ∧ readReg s rs = 0) ∨ ∃ rs, i = .wrf rs ∧ (readReg s rs).getLsbD 4 = true := by
  by_cases hl : leavesFlags i = true
  · rw [getFlag_congr (h.flags_of_leavesFlags hl), hs] at ht
    contradiction
  cases h with
  | write _ hf | cell _ hf | jump _ hf => exact absurd hf hl
  | exchange | halt => exact absurd rfl hl
  | result | results | compare => simp [writeResult, writeResults, getFlag_setFlags] at ht
  | divideByZero hz => exact .inl ⟨_, _, rfl, hz⟩
  | writeFlags rs => exact .inr ⟨rs, rfl, (getFlag_divideByZero_of_flags_eq rfl).symm.trans ht⟩

end Sys2Proof.Machine
end

section
/-! SUPPORT. What the host's load and set-entry answer, and what is read after reset (70_reset_and_hazards.md R134 to R137). -/

namespace Sys2Proof.Machine

theorem hostLoad_eq_next_iff {image : List Byte} {s t : State} :
    hostLoad image s = .next t ↔
      s.status = .ready ∧ image.length = Config.memBytes ∧ t = { s with mem := imageMemory 0 image } := by
  unfold hostLoad
  split
  next hready =>
    split
    next hlen => simp [hready, hlen, eq_comm]
    next hlen => simp [hlen]
  next hready => simp [hready]

theorem hostSetEntry_eq_next_iff {entry : Word} {s t : State} :
    hostSetEntry entry s = .next t ↔ s.status = .ready ∧ t = { s with rip := entry } := by
  unfold hostSetEntry
  split
  next hready => simp [hready, eq_comm]
  next hready => simp [hready]

@[simp] theorem readReg_reset (r : Reg) : readReg State.reset r = 0 := by
  cases r with
  | gpr n => exact Vector.getElem_replicate n.isLt
  | rip | rp => rfl

@[simp] theorem getFlag_reset (f : Flag) : getFlag State.reset f = false := by
  simp [getFlag, State.reset]

@[simp] theorem memRead_reset (a : Word) : memRead State.reset a = 0 :=
  show Config.resetByte ++ Config.resetByte = (0 : Word) by decide

end Sys2Proof.Machine
end

section
/-! The obligations of 10_state.md. -/

namespace Sys2Proof.Machine

/-- Settles O18: no handler ends in an effect that writes a register outside its destinations. -/
theorem handlersWriteOnlyTheirDestinations : Obligations.HandlersWriteOnlyTheirDestinations :=
  fun _ _ _ h _ hr => (effect_of_exec h).readReg_of_not_mem hr

/-- Settles O20: by the handler's effect for an instruction, and by the writes of fault entry where none decodes. -/
theorem otherInstructionsLeaveTheFlags : Obligations.OtherInstructionsLeaveTheFlags := by
  refine ⟨fun i s t hl h => (effect_of_exec h).flags_of_leavesFlags hl, fun s t hrun hno h => ?_⟩
  obtain ⟨hidle, _⟩ | ⟨_, _, rfl⟩ | ⟨_, id, _, rfl⟩ | ⟨_, i, u, hd, _⟩ := step_cases h
  · exact absurd hrun hidle
  · exact takeFault_flags ..
  · exact takeFault_flags ..
  · exact absurd hd (hno i)

/-- Settles O21: an idle step and a fault keep `F`, and the loop's advance keeps what the handler left of it. -/
theorem divideByZeroFlagHasTwoSources : Obligations.DivideByZeroFlagHasTwoSources := by
  intro s t h hs ht
  have hne : t.flags ≠ s.flags := fun hf => by simp [getFlag_congr hf, hs] at ht
  obtain ⟨_, rfl⟩ | ⟨_, _, rfl⟩ | ⟨_, id, _, rfl⟩ | ⟨hrun, i, u, hd, he, rfl⟩ := step_cases h
  · exact absurd rfl hne
  · exact absurd (takeFault_flags ..) hne
  · exact absurd (takeFault_flags ..) hne
  · rw [getFlag_congr (advanceUnless_flags ..)] at ht
    obtain ⟨rd, rs, rfl, hz⟩ | ⟨rs, rfl, hbit⟩ := (effect_of_exec he).divideByZero_source hs ht
    · exact ⟨hrun, .inl ⟨rd, rs, hd, hz⟩⟩
    · exact ⟨hrun, .inr ⟨rs, hd, hbit⟩⟩

/-- Settles O10: each of the three statuses is not Running. -/
theorem nothingExecutesOutsideRunning : Obligations.NothingExecutesOutsideRunning := by
  rintro s (h | h | h) <;> exact step_of_not_running (by simp [h])

/-- Settles O14: nothing is listed in memory, and in Ready the invariant asks for the values reset gives. -/
theorem resetHasTheInvariant : Obligations.ResetHasTheInvariant :=
  ⟨Memory.wf_reset, fun _ => rfl, fun _ => rfl, fun h => nomatch h⟩

/-- Settles O56: a load writes memory alone and set-entry `pc` alone; the values after reset are read field by field. -/
theorem resetGivesEveryStatedValue : Obligations.ResetGivesEveryStatedValue := by
  refine ⟨fun e s t _ hreset hstart h => ?_, fun s =>
    ⟨rfl, readReg_reset, getFlag_reset, memRead_reset, rfl, rfl, rfl, rfl, rfl, rfl⟩⟩
  cases e with
  | reset => exact absurd rfl hreset
  | start => exact absurd rfl hstart
  | load image =>
    obtain ⟨_, _, rfl⟩ := hostLoad_eq_next_iff.mp h
    rfl
  | setEntry entry =>
    obtain ⟨_, rfl⟩ := hostSetEntry_eq_next_iff.mp h
    rfl

end Sys2Proof.Machine
end

section
/-! SUPPORT. What a handler does to memory (20_memory.md R27, R41), from the effect it ends in. -/

namespace Sys2Proof.Machine

/-- A handler whose row of the access table names a cell does nothing but that store. -/
theorem Effect.eq_memWrite_of_storedCell {i : Instr} {s t : State} {addr v : Word} (h : Effect s i t)
    (hc : storedCell s i = some (addr, v)) : t = memWrite s addr v := by
  cases h with
  | cell _ _ hdst =>
    cases hdst.symm.trans hc
    rfl
  | write _ _ hnone | result _ _ hnone | results _ _ hnone | compare _ _ hnone | jump _ _ hnone =>
    exact nomatch hnone.symm.trans hc
  | exchange | writeFlags | divideByZero | halt => exact nomatch hc

/-- A handler whose row names none leaves the memory itself alone, not only its reading. -/
theorem Effect.mem_of_storedCell {i : Instr} {s t : State} (h : Effect s i t) (hc : storedCell s i = none) :
    t.mem = s.mem := by
  cases h with
  | cell _ _ hdst => exact nomatch hdst.symm.trans hc
  | write | exchange | result | results | compare | divideByZero | jump => simp
  | writeFlags | halt => rfl

/-- A read looks at memory alone, which the loop's advance does not touch. -/
@[simp] theorem memRead_advanceUnless (b : Bool) (n : Nat) (s : State) (a : Word) :
    memRead (advanceUnless b n s) a = memRead s a := by
  simp only [memRead, advanceUnless_mem]

/-- The step at a storing instruction: the store, then the loop's policy (40_execution_loop.md R58). -/
theorem step_of_storedCell {i : Instr} {s : State} {addr v : Word} (hrun : s.status = .running)
    (hd : decodeAt s = .instr i) (hc : storedCell s i = some (addr, v)) :
    step s = .next (advanceUnless (redirects i s) (instrLength i) (memWrite s addr v)) := by
  obtain ⟨u, he, heff⟩ := exec_effect i s
  obtain rfl := heff.eq_memWrite_of_storedCell hc
  rw [step_of_running hrun, stepRunning_instr hd he]

end Sys2Proof.Machine
end

section
/-! The obligations of 20_memory.md. -/

namespace Sys2Proof.Machine

/-- Settles O17: a fetch is a read at an address from `pc` on, and the advance leaves what the store wrote. -/
theorem nextFetchSeesTheStore : Obligations.NextFetchSeesTheStore := by
  intro s t i addr v hrun hd hc h k
  obtain rfl := Host.Outcome.next.inj ((step_of_storedCell hrun hd hc).symm.trans h)
  rw [fetchWord, memRead_advanceUnless, memRead_memWrite]

/-- Settles O19: a storing handler is its store, whose frame is the cell; no other handler writes memory. -/
theorem handlersWriteOnlyTheirCell : Obligations.HandlersWriteOnlyTheirCell := by
  intro i s t h
  have heff := effect_of_exec h
  split
  next addr v hc =>
    obtain rfl := heff.eq_memWrite_of_storedCell hc
    obtain ⟨hread, _, _, hframe, _⟩ := store_spec (.absolute addr) v s
    exact ⟨hread, hframe⟩
  next hc =>
    intro n
    rw [heff.mem_of_storedCell hc]

end Sys2Proof.Machine
end

section
/-! SUPPORT. The formats of 30_encoding.md R44: how each lays its operands out in Words, what its decoder can answer, and which
format each instruction and each opcode has. -/

namespace Sys2Proof

/-! ### Formats -/

/-- The formats of 30_encoding.md R44, each with the instruction it makes of its operands; RI and RA are one layout. -/
inductive OpFormat where
  | rr (mk : Reg → Reg → Instr)
  | r (mk : Reg → Instr)
  | rx (mk : Reg → Word → Instr)
  | a (mk : Word → Instr)
  | ai (mk : Word → Word → Instr)

/-- The number of extension Words of the format (30_encoding.md R43, R44). -/
def OpFormat.extensions : OpFormat → Nat
  | .rr _ | .r _ => 0
  | .rx _ | .a _ => 1
  | .ai _ => 2

/-- Whether the format uses `ra`, and whether it uses `rb`, as a register identifier (30_encoding.md R44). -/
def OpFormat.uses : OpFormat → Bool × Bool
  | .rr _ => (true, true)
  | .r _ | .rx _ => (true, false)
  | .a _ | .ai _ => (false, false)

/-- The decoder of the format. -/
def OpFormat.decode (f : OpFormat) (ra rb : RegField) (e1 e2 : Word) : Decoded :=
  match f with
  | .rr mk => decodeRR mk ra rb
  | .r mk => decodeR mk ra rb
  | .rx mk => decodeR (fun r => mk r e1) ra rb
  | .a mk => decodeA (mk e1) ra rb
  | .ai mk => decodeA (mk e1 e2) ra rb

/-- `f.Lays i ra rb ext`: the format lays the operands of `i` out as these register fields and extension Words. -/
inductive OpFormat.Lays : OpFormat → Instr → RegField → RegField → List Word → Prop where
  | rr {mk : Reg → Reg → Instr} (a b : Reg) : Lays (.rr mk) (mk a b) a.toField b.toField []
  | r {mk : Reg → Instr} (a : Reg) : Lays (.r mk) (mk a) a.toField 0#5 []
  | rx {mk : Reg → Word → Instr} (a : Reg) (x : Word) : Lays (.rx mk) (mk a x) a.toField 0#5 [x]
  | a {mk : Word → Instr} (x : Word) : Lays (.a mk) (mk x) 0#5 0#5 [x]
  | ai {mk : Word → Word → Instr} (x y : Word) : Lays (.ai mk) (mk x y) 0#5 0#5 [x, y]

/-- Every field that is no register identifier is 0 (30_encoding.md R49). -/
def ReservedClear (uses : Bool × Bool) (ra rb : RegField) : Prop := (uses.1 = true ∨ ra = 0#5) ∧ (uses.2 = true ∨ rb = 0#5)

/-- Every field that is a register identifier names a register (30_encoding.md R45). -/
def RegistersNamed (uses : Bool × Bool) (ra rb : RegField) : Prop :=
  (uses.1 = true → ra.toNat ≤ 17) ∧ (uses.2 = true → rb.toNat ≤ 17)

/-- A format's decoder reads back what the format lays out, whatever Words follow. -/
theorem OpFormat.Lays.decode {f : OpFormat} {i : Instr} {ra rb : RegField} {ext : List Word} (h : f.Lays i ra rb ext)
    (tail : List Word) : f.decode ra rb ((ext ++ tail).getD 0 0) ((ext ++ tail).getD 1 0) = .instr i := by
  cases h with
  | rr a b => exact decodeRR_toField ..
  | r | rx => exact decodeR_toField ..
  | a | ai => exact decodeA_zero ..

/-- The three answers of a format's decoder, each with the fields that give it (30_encoding.md R45, R49, R50): `laid` holds of
the instruction it answers. -/
def Answers (uses : Bool × Bool) (ra rb : RegField) (laid : Instr → Prop) (d : Decoded) : Prop :=
  (¬ ReservedClear uses ra rb ∧ d = .invalidOpcode) ∨
  (ReservedClear uses ra rb ∧ ¬ RegistersNamed uses ra rb ∧ ∃ id, d = .invalidRegister id) ∨
  (ReservedClear uses ra rb ∧ RegistersNamed uses ra rb ∧ ∃ i, laid i ∧ d = .instr i)

theorem decodeRR_answers {mk : Reg → Reg → Instr} {ra rb : RegField} {laid : Instr → Prop}
    (hlaid : ∀ a b, a.toField = ra → b.toField = rb → laid (mk a b)) :
    Answers (true, true) ra rb laid (decodeRR mk ra rb) := by
  have hclear : ReservedClear (true, true) ra rb := ⟨.inl rfl, .inl rfl⟩
  rcases decodeRR_cases mk ra rb with ⟨ha, h⟩ | ⟨_, hb, h⟩ | ⟨ha, hb, a, b, hra, hrb, h⟩
  · exact .inr (.inl ⟨hclear, fun hn => ha.not_ge (hn.1 rfl), _, h⟩)
  · exact .inr (.inl ⟨hclear, fun hn => hb.not_ge (hn.2 rfl), _, h⟩)
  · exact .inr (.inr ⟨hclear, ⟨fun _ => not_lt.mp ha, fun _ => not_lt.mp hb⟩, _, hlaid a b hra hrb, h⟩)

theorem decodeR_answers {mk : Reg → Instr} {ra rb : RegField} {laid : Instr → Prop}
    (hlaid : ∀ a, a.toField = ra → rb = 0#5 → laid (mk a)) : Answers (true, false) ra rb laid (decodeR mk ra rb) := by
  rcases decodeR_cases mk ra rb with ⟨hb, h⟩ | ⟨hb, ha, h⟩ | ⟨hb, ha, a, hra, h⟩
  · exact .inl ⟨fun hc => hb (by simpa using congrArg BitVec.toNat (hc.2.resolve_left Bool.false_ne_true)), h⟩
  · exact .inr (.inl ⟨⟨.inl rfl, .inr hb⟩, fun hn => ha.not_ge (hn.1 rfl), _, h⟩)
  · exact .inr (.inr ⟨⟨.inl rfl, .inr hb⟩, ⟨fun _ => not_lt.mp ha, nofun⟩, _, hlaid a hra hb, h⟩)

theorem decodeA_answers {i : Instr} {ra rb : RegField} {laid : Instr → Prop}
    (hlaid : ra = 0#5 → rb = 0#5 → laid i) : Answers (false, false) ra rb laid (decodeA i ra rb) := by
  have hclear : ReservedClear (false, false) ra rb ↔ ra = 0#5 ∧ rb = 0#5 := by simp [ReservedClear]
  by_cases hz : ra = 0#5 ∧ rb = 0#5
  · exact .inr (.inr ⟨hclear.mpr hz, ⟨nofun, nofun⟩, i, hlaid hz.1 hz.2, by rw [hz.1, hz.2, decodeA_zero]⟩)
  · exact .inl ⟨hclear.not.mpr hz, if_pos (not_and_or.mp hz)⟩

/-- A format's decoder answers an instruction that the format lays out as the given fields and extension Words, or it refuses
the fields. -/
theorem OpFormat.decode_answers (f : OpFormat) (ra rb : RegField) (e1 e2 : Word) :
    Answers f.uses ra rb (fun i => f.Lays i ra rb ([e1, e2].take f.extensions)) (f.decode ra rb e1 e2) := by
  cases f with
  | rr mk => exact decodeRR_answers (by rintro a b rfl rfl; exact .rr a b)
  | r mk => exact decodeR_answers (by rintro a rfl rfl; exact .r a)
  | rx mk => exact decodeR_answers (by rintro a rfl rfl; exact .rx a e1)
  | a mk => exact decodeA_answers (by rintro rfl rfl; exact .a e1)
  | ai mk => exact decodeA_answers (by rintro rfl rfl; exact .ai e1 e2)

/-! ### The opcode map -/

/-- The register fields that the rows of the opcode table with this opcode use. -/
def tableUses (op : BitVec 6) : List (Bool × Bool) :=
  (opcodeTable.filter fun row => opField row.bits == op).map fun row => (row.usesRa, row.usesRb)

/-- The opcode has the format: in the decoder, in the encoder, in the rule of lengths and in the opcode table. -/
structure HasFormat (op : BitVec 6) (f : OpFormat) : Prop where
  encodes {i : Instr} {ra rb : RegField} {ext : List Word} : f.Lays i ra rb ext → encode i = firstWord op ra rb :: ext
  decodes (ra rb : RegField) (e1 e2 : Word) : decodeFields op ra rb e1 e2 = f.decode ra rb e1 e2
  length_eq : lengthOfOp op = f.extensions + 1
  uses_eq : tableUses op = [f.uses]

theorem hasFormat_rr {op : BitVec 6} {mk : Reg → Reg → Instr}
    (he : ∀ a b, encode (mk a b) = [firstWord op a.toField b.toField])
    (hd : ∀ ra rb e1 e2, decodeFields op ra rb e1 e2 = decodeRR mk ra rb) (hl : lengthOfOp op = 1)
    (hu : tableUses op = [(true, true)]) : HasFormat op (.rr mk) :=
  ⟨fun h => by cases h with | rr a b => exact he a b, hd, hl, hu⟩

theorem hasFormat_r {op : BitVec 6} {mk : Reg → Instr} (he : ∀ a, encode (mk a) = [firstWord op a.toField 0])
    (hd : ∀ ra rb e1 e2, decodeFields op ra rb e1 e2 = decodeR mk ra rb) (hl : lengthOfOp op = 1)
    (hu : tableUses op = [(true, false)]) : HasFormat op (.r mk) :=
  ⟨fun h => by cases h with | r a => exact he a, hd, hl, hu⟩

theorem hasFormat_rx {op : BitVec 6} {mk : Reg → Word → Instr}
    (he : ∀ a x, encode (mk a x) = [firstWord op a.toField 0, x])
    (hd : ∀ ra rb e1 e2, decodeFields op ra rb e1 e2 = decodeR (fun a => mk a e1) ra rb) (hl : lengthOfOp op = 2)
    (hu : tableUses op = [(true, false)]) : HasFormat op (.rx mk) :=
  ⟨fun h => by cases h with | rx a x => exact he a x, hd, hl, hu⟩

theorem hasFormat_a {op : BitVec 6} {mk : Word → Instr} (he : ∀ x, encode (mk x) = [firstWord op 0 0, x])
    (hd : ∀ ra rb e1 e2, decodeFields op ra rb e1 e2 = decodeA (mk e1) ra rb) (hl : lengthOfOp op = 2)
    (hu : tableUses op = [(false, false)]) : HasFormat op (.a mk) :=
  ⟨fun h => by cases h with | a x => exact he x, hd, hl, hu⟩

theorem hasFormat_ai {op : BitVec 6} {mk : Word → Word → Instr} (he : ∀ x y, encode (mk x y) = [firstWord op 0 0, x, y])
    (hd : ∀ ra rb e1 e2, decodeFields op ra rb e1 e2 = decodeA (mk e1 e2) ra rb) (hl : lengthOfOp op = 3)
    (hu : tableUses op = [(false, false)]) : HasFormat op (.ai mk) :=
  ⟨fun h => by cases h with | ai x y => exact he x y, hd, hl, hu⟩

/-- Every instruction is laid out by the format of an opcode. -/
theorem exists_hasFormat (i : Instr) : ∃ op f ra rb ext, OpFormat.Lays f i ra rb ext ∧ HasFormat op f := by
  cases i with
  | mov a b | ldr a b | str a b | xchg a b | add a b | adc a b | cmp a b | mul a b | div a b | and a b | or a b | xor a b
  | test a b =>
    exact ⟨_, _, _, _, _, .rr a b, hasFormat_rr (fun _ _ => rfl) (fun _ _ _ _ => rfl) rfl (by decide)⟩
  | ldi a x | ld a x =>
    exact ⟨_, _, _, _, _, .rx a x, hasFormat_rx (fun _ _ => rfl) (fun _ _ _ _ => rfl) rfl (by decide)⟩
  | st x a =>
    exact ⟨_, .rx fun a x => .st x a, _, _, _, .rx a x, hasFormat_rx (fun _ _ => rfl) (fun _ _ _ _ => rfl) rfl (by decide)⟩
  | rdf a | wrf a | inc a | dec a | neg a | not a | shl a | shr a | sar a | rol a | ror a | rcl a | rcr a | jmpr a | hlt a =>
    exact ⟨_, _, _, _, _, .r a, hasFormat_r (fun _ => rfl) (fun _ _ _ _ => rfl) rfl (by decide)⟩
  | jmp x | jz x | jnz x | js x | jns x | jc x | jnc x | jo x | jno x | jdz x | jndz x =>
    exact ⟨_, _, _, _, _, .a x, hasFormat_a (fun _ => rfl) (fun _ _ _ _ => rfl) rfl (by decide)⟩
  | sti x y =>
    exact ⟨_, _, _, _, _, .ai x y, hasFormat_ai (fun _ _ => rfl) (fun _ _ _ _ => rfl) rfl (by decide)⟩

/-- The opcode the encoder gives to what was decoded, where that is an instruction. -/
def opcodeOfDecoded : Decoded → Option (BitVec 6)
  | .instr i => some (opcodeOf i)
  | .invalidOpcode | .invalidRegister _ => none

/-- The opcodes one by one: with clear fields an assigned one decodes to an instruction that the encoder gives this opcode, and an
unassigned one has no row in the opcode table. -/
theorem assigned_or_unassigned : ∀ op : BitVec 6,
    opcodeOfDecoded (decodeFields op 0 0 0 0) = some op ∨ op.toNat ∈ Machine.unassignedOps ∧ tableUses op = [] := by
  decide

theorem decodeFields_of_unassigned {op : BitVec 6} (h : op.toNat ∈ Machine.unassignedOps) (ra rb : RegField)
    (e1 e2 : Word) : decodeFields op ra rb e1 e2 = .invalidOpcode := by
  have key : ∀ n ∈ Machine.unassignedOps, decodeFields (BitVec.ofNat 6 n) ra rb e1 e2 = .invalidOpcode := by
    simp [Machine.unassignedOps, decodeFields]
  simpa using key op.toNat h

theorem opcodeOf_eq_of_encode {i : Instr} {op : BitVec 6} {ra rb : RegField} {ext : List Word}
    (h : encode i = firstWord op ra rb :: ext) : opcodeOf i = op := by
  simp [opcodeOf, h]

/-- Every opcode has a format or is unassigned (30_encoding.md R47, R48). -/
theorem hasFormat_or_unassigned (op : BitVec 6) :
    (∃ f, HasFormat op f) ∨ op.toNat ∈ Machine.unassignedOps ∧ tableUses op = [] := by
  refine (assigned_or_unassigned op).imp_left fun h => ?_
  rcases hd : decodeFields op 0 0 0 0 with i | _ | _ <;> rw [hd] at h
  · obtain ⟨op', f, _, _, _, hlays, hf⟩ := exists_hasFormat i
    obtain rfl : op' = op := (opcodeOf_eq_of_encode (hf.encodes hlays)).symm.trans (Option.some.inj h)
    exact ⟨f, hf⟩
  · exact nomatch h
  · exact nomatch h

end Sys2Proof
end

section
/-! SUPPORT. What encoder and decoder do to each other, and what the opcode table says of the fields of a first word
(30_encoding.md R48, R49, R55). -/

namespace Sys2Proof

/-! ### Encoder and decoder -/

/-- The decoder reads a first word made of three fields by its opcode. -/
theorem decodeWords_firstWord (op : BitVec 6) (ra rb : RegField) (rest : List Word) :
    decodeWords (firstWord op ra rb :: rest) = decodeFields op ra rb (rest.getD 0 0) (rest.getD 1 0) :=
  decode_firstWord ..

/-- The inversion of the decoder: the opcode has a format, which lays the instruction out as the first word's fields and the
extension Words it needs. -/
theorem lays_of_decode {first e1 e2 : Word} {i : Instr} (h : decode first e1 e2 = .instr i) :
    ∃ f, HasFormat (opField first) f ∧ f.Lays i (raField first) (rbField first) ([e1, e2].take f.extensions) := by
  rcases hasFormat_or_unassigned (opField first) with ⟨f, hf⟩ | ⟨hun, _⟩
  · rw [decode, hf.decodes] at h
    rcases f.decode_answers (raField first) (rbField first) e1 e2 with
      ⟨_, hbad⟩ | ⟨_, _, id, hbad⟩ | ⟨_, _, j, hlays, hj⟩
    · exact nomatch hbad.symm.trans h
    · exact nomatch hbad.symm.trans h
    · obtain rfl : j = i := Decoded.instr.inj (hj.symm.trans h)
      exact ⟨f, hf, hlays⟩
  · exact nomatch (decodeFields_of_unassigned hun ..).symm.trans h

theorem opcodeOf_of_decode {first e1 e2 : Word} {i : Instr} (h : decode first e1 e2 = .instr i) :
    opcodeOf i = opField first := by
  obtain ⟨f, hf, hlays⟩ := lays_of_decode h
  exact opcodeOf_eq_of_encode (hf.encodes hlays)

/-- The rule of 30_encoding.md R51 for the opcodes in a comparison, as `lengthOfOp` has it by cases. -/
theorem lengthOfOp_eq : ∀ op : BitVec 6,
    lengthOfOp op =
      if op.toNat = 0x07 then 3
      else if op.toNat ∈ [0x02, 0x03, 0x04, 0x28] ∨ (0x2A ≤ op.toNat ∧ op.toNat ≤ 0x33) then 2 else 1 := by
  decide

/-! ### The opcode table -/

theorem firstWord_and (op op' : BitVec 6) (ra ra' rb rb' : RegField) :
    firstWord op ra rb &&& firstWord op' ra' rb' = firstWord (op &&& op') (ra &&& ra') (rb &&& rb') :=
  BitVec.and_append.trans (congrArg (· ++ (rb &&& rb')) BitVec.and_append)

theorem firstWord_inj {op op' : BitVec 6} {ra ra' rb rb' : RegField} :
    firstWord op ra rb = firstWord op' ra' rb' ↔ op = op' ∧ ra = ra' ∧ rb = rb' := by
  constructor
  · intro h
    exact ⟨by simpa using congrArg opField h, by simpa using congrArg raField h, by simpa using congrArg rbField h⟩
  · rintro ⟨rfl, rfl, rfl⟩
    rfl

/-- The mask of a register field: no bit of an identifier, every bit of a reserved field. -/
def maskOfField (isRegister : Bool) : RegField := if isRegister then 0 else BitVec.allOnes 5

theorem and_maskOfField (isRegister : Bool) (field : RegField) :
    field &&& maskOfField isRegister = 0#5 ↔ isRegister = true ∨ field = 0#5 := by
  cases isRegister with
  | false => simp only [maskOfField, Bool.false_eq_true, if_false, BitVec.and_allOnes, false_or]
  | true => simp [maskOfField]

/-- Every row of the table compares the opcode and the reserved fields, these with 0. -/
theorem row_mask_and_bits : ∀ row ∈ opcodeTable,
    row.mask = firstWord (BitVec.allOnes 6) (maskOfField row.usesRa) (maskOfField row.usesRb) ∧
      row.bits = firstWord (opField row.bits) 0#5 0#5 := by
  decide

theorem selects_iff {row : TableRow} (hrow : row ∈ opcodeTable) (first : Word) :
    row.selects first = true ↔
      opField row.bits = opField first ∧ ReservedClear (row.usesRa, row.usesRb) (raField first) (rbField first) := by
  obtain ⟨hmask, hbits⟩ := row_mask_and_bits row hrow
  have hfields : row.selects first = true ↔
      opField first = opField row.bits ∧ raField first &&& maskOfField row.usesRa = 0#5 ∧
        rbField first &&& maskOfField row.usesRb = 0#5 := by
    rw [← BitVec.and_allOnes (x := opField first), ← firstWord_inj, ← firstWord_and, ← hmask, firstWord_fields, ← hbits]
    exact beq_iff_eq
  rw [hfields, and_maskOfField, and_maskOfField, ReservedClear, eq_comm]

theorem namesRegisters_iff (row : TableRow) (first : Word) :
    row.namesRegisters first = true ↔ RegistersNamed (row.usesRa, row.usesRb) (raField first) (rbField first) := by
  have hra : (first >>> 5 &&& 0x1F#16).toNat = (raField first).toNat := by
    rw [raField_toNat, BitVec.toNat_and, BitVec.toNat_ushiftRight, Nat.shiftRight_eq_div_pow]
    exact Nat.and_two_pow_sub_one_eq_mod _ 5
  have hrb : (first &&& 0x1F#16).toNat = (rbField first).toNat := by
    rw [rbField_toNat, BitVec.toNat_and]
    exact Nat.and_two_pow_sub_one_eq_mod _ 5
  simp [TableRow.namesRegisters, RegistersNamed, hra, hrb, Bool.or_eq_true, imp_iff_not_or]

theorem mem_tableUses {op : BitVec 6} {uses : Bool × Bool} :
    uses ∈ tableUses op ↔ ∃ row ∈ opcodeTable, opField row.bits = op ∧ (row.usesRa, row.usesRb) = uses := by
  simp [tableUses, and_assoc]

/-- A row selects the word exactly when a row of its opcode finds its reserved fields clear. -/
theorem selectsSomeRow_iff (first : Word) :
    selectsSomeRow first = true ↔
      ∃ uses ∈ tableUses (opField first), ReservedClear uses (raField first) (rbField first) := by
  simp only [selectsSomeRow, List.any_eq_true, mem_tableUses]
  constructor
  · rintro ⟨row, hrow, hsel⟩
    obtain ⟨hop, hclear⟩ := (selects_iff hrow first).mp hsel
    exact ⟨_, ⟨row, hrow, hop, rfl⟩, hclear⟩
  · rintro ⟨_, ⟨row, hrow, hop, rfl⟩, hclear⟩
    exact ⟨row, hrow, (selects_iff hrow first).mpr ⟨hop, hclear⟩⟩

theorem wellFormedFirstWord_iff (first : Word) :
    wellFormedFirstWord first = true ↔
      ∃ uses ∈ tableUses (opField first), ReservedClear uses (raField first) (rbField first) ∧
        RegistersNamed uses (raField first) (rbField first) := by
  simp only [wellFormedFirstWord, List.any_eq_true, Bool.and_eq_true, namesRegisters_iff, mem_tableUses]
  constructor
  · rintro ⟨row, hrow, hsel, hnamed⟩
    obtain ⟨hop, hclear⟩ := (selects_iff hrow first).mp hsel
    exact ⟨_, ⟨row, hrow, hop, rfl⟩, hclear, hnamed⟩
  · rintro ⟨_, ⟨row, hrow, hop, rfl⟩, hclear, hnamed⟩
    exact ⟨row, hrow, (selects_iff hrow first).mpr ⟨hop, hclear⟩, hnamed⟩

/-- The three answers of the decoder, each with what the opcode table says of the first word. -/
theorem decode_cases (first e1 e2 : Word) :
    (selectsSomeRow first = false ∧ wellFormedFirstWord first = false ∧ decode first e1 e2 = .invalidOpcode) ∨
    (selectsSomeRow first = true ∧ wellFormedFirstWord first = false ∧ ∃ id, decode first e1 e2 = .invalidRegister id) ∨
    (selectsSomeRow first = true ∧ wellFormedFirstWord first = true ∧ ∃ i, decode first e1 e2 = .instr i) := by
  simp only [← Bool.not_eq_true, selectsSomeRow_iff, wellFormedFirstWord_iff, decode]
  rcases hasFormat_or_unassigned (opField first) with ⟨f, hf⟩ | ⟨hun, hno⟩
  · simp only [hf.uses_eq, hf.decodes, List.mem_singleton, exists_eq_left]
    rcases f.decode_answers (raField first) (rbField first) e1 e2 with
      ⟨hclear, h⟩ | ⟨hclear, hnamed, hid⟩ | ⟨hclear, hnamed, i, _, h⟩
    · exact .inl ⟨hclear, fun hwf => hclear hwf.1, h⟩
    · exact .inr (.inl ⟨hclear, fun hwf => hnamed hwf.2, hid⟩)
    · exact .inr (.inr ⟨hclear, ⟨hclear, hnamed⟩, i, h⟩)
  · exact .inl ⟨by simp [hno], by simp [hno], decodeFields_of_unassigned hun ..⟩

end Sys2Proof
end

section
/-! The obligations of 30_encoding.md. -/

namespace Sys2Proof.Machine

/-- Settles O1: the instruction's opcode has a format, whose decoder reads back what the format lays out. -/
theorem decodeOfEncodeIsTheInstruction : Obligations.DecodeOfEncodeIsTheInstruction := by
  intro i tail
  obtain ⟨op, f, ra, rb, ext, hlays, hf⟩ := exists_hasFormat i
  rw [hf.encodes hlays, List.cons_append, decodeWords_firstWord, hf.decodes]
  exact hlays.decode tail

/-- Settles O2: what decodes is laid out by the format of its opcode, and the encoder writes that layout. -/
theorem encodeOfDecodeIsTheWords : Obligations.EncodeOfDecodeIsTheWords := by
  intro first e1 e2 i h
  obtain ⟨f, hf, hlays⟩ := lays_of_decode h
  rw [hf.encodes hlays, firstWord_fields, instrLength, opcodeOf_of_decode h, hf.length_eq, List.take_succ_cons]

/-- Settles O3: each of the decoder's three answers excludes the other two, and the table says which it is. -/
theorem decodeAgreesWithOpcodeTable : Obligations.DecodeAgreesWithOpcodeTable := by
  intro first e1 e2
  rcases decode_cases first e1 e2 with ⟨hsel, hwf, h⟩ | ⟨hsel, hwf, id, h⟩ | ⟨hsel, hwf, i, h⟩ <;> simp [hsel, hwf, h]

/-- Settles O5: the encoder gives a decoded instruction the opcode it was read with, and fault entry leaves `pc` alone. -/
theorem lengthFollowsFromOpcodeAlone : Obligations.LengthFollowsFromOpcodeAlone := by
  refine ⟨fun first e1 e2 i h => ?_, fun s hrun hno => ?_⟩
  · rw [instrLength, opcodeOf_of_decode h, lengthOfOp_eq, opField_toNat]
  · rw [step_of_running hrun]
    rcases hd : decodeAt s with i | _ | id
    · exact absurd hd (hno i)
    · exact ⟨takeFault .invalidOpcode 0#5 s, by simp [stepRunning, hd], rfl⟩
    · exact ⟨takeFault .invalidRegister id s, by simp [stepRunning, hd], rfl⟩

/-- Settles O6: the six words by evaluation of the decoder. -/
theorem exampleWordsDecode : Obligations.ExampleWordsDecode :=
  ⟨rfl, rfl, rfl, rfl, rfl, rfl⟩

/-- NOP writes to `r0` what `r0` holds. -/
theorem exec_expandPseudo_nop (s : State) : exec (expandPseudo .nop) s = .next s :=
  congrArg Host.Outcome.next (writeReg_readReg s (.gpr 0))

/-- Settles O7: the first words are those of the real instructions, and NOP's handler changes nothing. -/
theorem pseudoInstructionsNameRealOnes : Obligations.PseudoInstructionsNameRealOnes := by
  refine ⟨rfl, fun rd => ?_, fun a => ⟨rfl, rfl, rfl, rfl⟩, fun _ => rfl, fun s =>
    ⟨exec_expandPseudo_nop s, thenAdvances_of (exec_expandPseudo_nop s) rfl rfl⟩⟩
  exact congrArg (fun w => [w]) (firstWord_eq_ofNat 0x20 rd.toField 0)

end Sys2Proof.Machine
end

section
/-! SUPPORT. The decode checks in their order (40_execution_loop.md R60, 60_exceptions.md R127), for each format and then for
each first word. -/

namespace Sys2Proof

/-- The answer `d` to the register fields is that of the first check they fail, where `uses` says which of them are register
identifiers: a reserved field that is not 0, then `ra` above 17, then `rb` above 17 (40_execution_loop.md R60). -/
def ChecksInOrder (uses : Bool × Bool) (ra rb : RegField) (d : Decoded) : Prop :=
  if uses.1 = false ∧ ra.toNat ≠ 0 ∨ uses.2 = false ∧ rb.toNat ≠ 0 then d = .invalidOpcode
  else if uses.1 = true ∧ 17 < ra.toNat then d = .invalidRegister ra
  else if uses.2 = true ∧ 17 < rb.toNat then d = .invalidRegister rb
  else ∃ i, d = .instr i

theorem decodeRR_checks (mk : Reg → Reg → Instr) (ra rb : RegField) :
    ChecksInOrder (true, true) ra rb (decodeRR mk ra rb) := by
  rcases decodeRR_cases mk ra rb with ⟨ha, h⟩ | ⟨ha, hb, h⟩ | ⟨ha, hb, a, b, _, _, h⟩
  · simp [ChecksInOrder, ha, h]
  · simp [ChecksInOrder, ha, hb, h]
  · simp [ChecksInOrder, ha, hb, h]

theorem decodeR_checks (mk : Reg → Instr) (ra rb : RegField) : ChecksInOrder (true, false) ra rb (decodeR mk ra rb) := by
  rcases decodeR_cases mk ra rb with ⟨hb, h⟩ | ⟨rfl, ha, h⟩ | ⟨rfl, ha, a, _, h⟩
  · simp [ChecksInOrder, hb, h]
  · simp [ChecksInOrder, ha, h]
  · simp [ChecksInOrder, ha, h]

theorem decodeA_checks (i : Instr) (ra rb : RegField) : ChecksInOrder (false, false) ra rb (decodeA i ra rb) := by
  have hzero : ∀ field : RegField, field.toNat ≠ 0 ↔ field ≠ 0#5 := fun field => BitVec.toNat_ne_iff_ne (y := 0#5)
  simp only [ChecksInOrder, hzero, true_and]
  split
  next hfields => exact if_pos hfields
  next hfields => exact ⟨i, if_neg hfields⟩

/-- Every format's decoder checks its fields in the fixed order. -/
theorem OpFormat.decode_checks (f : OpFormat) (ra rb : RegField) (e1 e2 : Word) :
    ChecksInOrder f.uses ra rb (f.decode ra rb e1 e2) := by
  cases f with
  | rr mk => exact decodeRR_checks ..
  | r | rx => exact decodeR_checks ..
  | a | ai => exact decodeA_checks ..

/-- The decoder refuses an unassigned opcode, and checks the fields of an assigned one as its row of the opcode table says. -/
theorem decode_checks (first e1 e2 : Word) :
    ((opField first).toNat ∈ Machine.unassignedOps ∧ decode first e1 e2 = .invalidOpcode) ∨
    ∃ uses ∈ tableUses (opField first), ChecksInOrder uses (raField first) (rbField first) (decode first e1 e2) := by
  rcases hasFormat_or_unassigned (opField first) with ⟨f, hf⟩ | ⟨hun, _⟩
  · refine .inr ⟨f.uses, by simp [hf.uses_eq], ?_⟩
    rw [decode, hf.decodes]
    exact f.decode_checks ..
  · exact .inl ⟨hun, decodeFields_of_unassigned hun ..⟩

/-- A reported identifier is one of 18 to 31, which name no register (30_encoding.md R45). -/
theorem lt_toNat_of_decode_eq_invalidRegister {first e1 e2 : Word} {id : RegField}
    (h : decode first e1 e2 = .invalidRegister id) : 17 < id.toNat := by
  rcases decode_checks first e1 e2 with ⟨_, hbad⟩ | ⟨uses, _, hchecks⟩
  · exact nomatch hbad.symm.trans h
  rw [h, ChecksInOrder] at hchecks
  split_ifs at hchecks with _ hra hrb
  · obtain rfl := Decoded.invalidRegister.inj hchecks
    exact hra.2
  · obtain rfl := Decoded.invalidRegister.inj hchecks
    exact hrb.2
  · exact nomatch hchecks

/-- The lists of opcodes by format say of an assigned opcode what its row of the opcode table says. -/
theorem ops_of_mem_tableUses : ∀ op : BitVec 6, ∀ uses ∈ tableUses op,
    op.toNat ∉ Machine.unassignedOps ∧ (op.toNat ∈ Machine.opsA ↔ uses.1 = false) ∧
      (op.toNat ∈ Machine.opsRR ↔ uses.2 = true) := by
  decide

end Sys2Proof
end

section
/-! SUPPORT. What a handler, a step and a host event do to `status`, `result` and the fault record (40_execution_loop.md R56,
46_halt.md R120), and to the canonical form of memory. -/

namespace Sys2Proof.Machine

/-- Every handler but HLT's keeps `status`, `result` and the fault record (46_halt.md R120). -/
theorem Effect.sameLifecycle_or_halt {i : Instr} {s t : State} (h : Effect s i t) :
    SameLifecycle s t ∨ ∃ rs, i = .hlt rs ∧ t = { s with result := readReg s rs, status := .halted } := by
  cases h with
  | halt rs => exact .inr ⟨rs, rfl, rfl⟩
  | writeFlags => exact .inl ⟨rfl, rfl, rfl⟩
  | cell => exact .inl (by simp [SameLifecycle, store])
  | write | exchange | result | results | compare | divideByZero | jump => exact .inl (by simp [SameLifecycle])

/-- No handler leaves a memory that is not canonical. -/
theorem Effect.mem_wf {i : Instr} {s t : State} (h : Effect s i t) (hs : s.mem.wf = true) : t.mem.wf = true := by
  rcases hc : storedCell s i with _ | ⟨addr, v⟩
  · rwa [h.mem_of_storedCell hc]
  · rw [h.eq_memWrite_of_storedCell hc]
    exact Memory.wf_writeWord addr v hs

/-- The cases of a host event that answers a next state (70_reset_and_hazards.md R133 to R138). -/
theorem hostEvent_cases {e : HostEvent} {s t : State} (h : hostEvent e s = .next t) :
    (e = .reset ∧ t = State.reset) ∨
    (∃ image, s.status = .ready ∧ image.length = Config.memBytes ∧ t = { s with mem := imageMemory 0 image }) ∨
    (∃ entry, s.status = .ready ∧ t = { s with rip := entry }) ∨
    (e = .start ∧ s.status = .ready ∧ t = { s with status := .running }) ∨
    (e = .start ∧ s.status ≠ .ready ∧ t = s) := by
  cases e with
  | reset => exact .inl ⟨rfl, (Host.Outcome.next.inj h).symm⟩
  | load image => exact .inr (.inl ⟨image, hostLoad_eq_next_iff.mp h⟩)
  | setEntry entry => exact .inr (.inr (.inl ⟨entry, hostSetEntry_eq_next_iff.mp h⟩))
  | start =>
    obtain rfl := Host.Outcome.next.inj h
    by_cases hready : s.status = .ready
    · exact .inr (.inr (.inr (.inl ⟨rfl, hready, if_pos hready⟩)))
    · exact .inr (.inr (.inr (.inr ⟨rfl, hready, if_neg hready⟩)))

end Sys2Proof.Machine
end

section
/-! SUPPORT. The invariant of a run: what it asks before a run has ended, and that every step and every host event keeps it. -/

namespace Sys2Proof.Machine

/-- In Ready and Running the invariant asks for a canonical memory and for the result and the fault record of reset. -/
theorem invariant_iff_of_not_ended {s : State} (h : ¬ Ended s) :
    Invariant s ↔ s.mem.wf = true ∧ s.result = 0x0000#16 ∧ s.fault = FaultRecord.clear := by
  obtain ⟨hhalted, hfaulted⟩ := not_or.mp h
  simp [Invariant, hhalted, hfaulted]

theorem not_ended_of_ready {s : State} (h : s.status = .ready) : ¬ Ended s := by simp [Ended, h]

theorem not_ended_of_running {s : State} (h : s.status = .running) : ¬ Ended s := by simp [Ended, h]

/-- Before a run has ended, a change that keeps the result and the fault record needs only to keep memory canonical. -/
theorem Invariant.of_not_ended {s t : State} (hs : Invariant s) (h : ¬ Ended s) (h' : ¬ Ended t) (hmem : t.mem.wf = true)
    (hresult : t.result = s.result) (hfault : t.fault = s.fault) : Invariant t := by
  obtain ⟨_, hr, hf⟩ := (invariant_iff_of_not_ended h).mp hs
  exact (invariant_iff_of_not_ended h').mpr ⟨hmem, hresult.trans hr, hfault.trans hf⟩

/-- The advance keeps the invariant while Running and in Halted, where it says nothing of `pc`. -/
theorem invariant_advanceUnless {s : State} (hs : Invariant s) (h : s.status ≠ .faulted) (b : Bool) (n : Nat) :
    Invariant (advanceUnless b n s) := by
  obtain ⟨hmem, hresult, hfault, _⟩ := hs
  exact ⟨by simpa using hmem, by simpa using hresult, by simpa using hfault, fun hf => absurd (by simpa using hf) h⟩

/-- Fault entry with the cause and the identifier that decoding gives (60_exceptions.md R128). -/
theorem invariant_takeFault {s : State} (hs : Invariant s) (hrun : s.status = .running) {cause : FaultCause} {id : RegField}
    (hd : (cause = .invalidOpcode ∧ id = 0#5 ∧ decodeAt s = .invalidOpcode) ∨
      (cause = .invalidRegister ∧ 17 < id.toNat ∧ decodeAt s = .invalidRegister id)) :
    Invariant (takeFault cause id s) := by
  obtain ⟨hmem, hresult, _⟩ := (invariant_iff_of_not_ended (not_ended_of_running hrun)).mp hs
  have hword : fetchWord s 0 = memRead s s.rip := by simp [fetchWord]
  exact ⟨hmem, fun _ => hresult, fun h => absurd rfl h, fun _ => ⟨rfl, hword, hd⟩⟩

/-- A handler that runs while Running leaves Running or Halted, with the invariant. -/
theorem Effect.invariant {i : Instr} {s t : State} (h : Effect s i t) (hs : Invariant s) (hrun : s.status = .running) :
    Invariant t ∧ t.status ≠ .faulted := by
  have hmem := h.mem_wf hs.1
  rcases h.sameLifecycle_or_halt with ⟨hstatus, hresult, hfault⟩ | ⟨rs, _, rfl⟩
  · have hrun' : t.status = .running := hstatus.trans hrun
    exact ⟨hs.of_not_ended (not_ended_of_running hrun) (not_ended_of_running hrun') hmem hresult hfault, by simp [hrun']⟩
  · obtain ⟨_, _, hclear⟩ := (invariant_iff_of_not_ended (not_ended_of_running hrun)).mp hs
    exact ⟨⟨hmem, fun h => absurd rfl h, fun _ => hclear, nofun⟩, nofun⟩

/-- Every step keeps the invariant of a run. -/
theorem invariant_of_step {s t : State} (hs : Invariant s) (h : step s = .next t) : Invariant t := by
  obtain ⟨_, rfl⟩ | ⟨hrun, hd, rfl⟩ | ⟨hrun, id, hd, rfl⟩ | ⟨hrun, i, u, _, he, rfl⟩ := step_cases h
  · exact hs
  · exact invariant_takeFault hs hrun (.inl ⟨rfl, rfl, hd⟩)
  · exact invariant_takeFault hs hrun (.inr ⟨rfl, lt_toNat_of_decode_eq_invalidRegister hd, hd⟩)
  · obtain ⟨hu, hstatus⟩ := (effect_of_exec he).invariant hs hrun
    exact invariant_advanceUnless hu hstatus ..

/-- Every host event keeps the invariant of a run: a load gives a canonical memory, the others write none or reset's. -/
theorem invariant_of_hostEvent {e : HostEvent} {s t : State} (hs : Invariant s) (h : hostEvent e s = .next t) :
    Invariant t := by
  obtain ⟨_, rfl⟩ | ⟨image, hready, hlen, rfl⟩ | ⟨entry, hready, rfl⟩ | ⟨_, hready, rfl⟩ | ⟨_, _, rfl⟩ := hostEvent_cases h
  · exact resetHasTheInvariant
  · exact hs.of_not_ended (not_ended_of_ready hready) (not_ended_of_ready hready) (Memory.wf_imageMemory hlen) rfl rfl
  · exact hs.of_not_ended (not_ended_of_ready hready) (not_ended_of_ready hready) hs.1 rfl rfl
  · exact hs.of_not_ended (not_ended_of_ready hready) (not_ended_of_running rfl) hs.1 rfl rfl
  · exact hs

end Sys2Proof.Machine
end

section
/-! SUPPORT. Where the loop continues after the handler of an instruction (40_execution_loop.md R62, R63). -/

namespace Sys2Proof

theorem OpFormat.Lays.length_eq {f : OpFormat} {i : Instr} {ra rb : RegField} {ext : List Word} (h : f.Lays i ra rb ext) :
    ext.length = f.extensions := by cases h <;> rfl

end Sys2Proof

namespace Sys2Proof.Machine

/-- The step at a decoded instruction: its handler, then the loop's policy (40_execution_loop.md R58). -/
theorem step_of_instr {s t : State} {i : Instr} (hrun : s.status = .running) (hd : decodeAt s = .instr i)
    (he : exec i s = .next t) : step s = .next (advanceUnless (redirects i s) (instrLength i) t) := by
  rw [step_of_running hrun, stepRunning_instr hd he]

/-- The loop adds as many Words as the encoder writes (30_encoding.md R51). -/
theorem instrLength_eq_length_encode (i : Instr) : instrLength i = (encode i).length := by
  obtain ⟨op, f, ra, rb, ext, hlays, hf⟩ := exists_hasFormat i
  have hencode := hf.encodes hlays
  rw [instrLength, opcodeOf_eq_of_encode hencode, hf.length_eq, hencode, List.length_cons, hlays.length_eq]

/-- `mk` makes a conditional jump on `f == want`: in its handler, in the loop's mark and in its length (45_control_flow.md
R108 to R117). -/
structure ConditionalJump (mk : Word → Instr) (f : Flag) (want : Bool) : Prop where
  exec_eq (addr : Word) (s : State) : exec (mk addr) s = .next (jumpIf f want addr s)
  redirects_eq (addr : Word) (s : State) : redirects (mk addr) s = jumpTaken f want s
  length_eq (addr : Word) : instrLength (mk addr) = 2

/-- A conditional jump continues at its target where its flag is as wanted, else past its two Words (45_control_flow.md R105). -/
theorem ConditionalJump.step_eq {mk : Word → Instr} {f : Flag} {want : Bool} (h : ConditionalJump mk f want) {s : State}
    {addr : Word} (hrun : s.status = .running) (hd : decodeAt s = .instr (mk addr)) :
    ∃ t, step s = .next t ∧ t.rip = (if getFlag s f = want then addr else s.rip + 2) ∧ t.flags = s.flags := by
  refine ⟨_, step_of_instr hrun hd (h.exec_eq addr s), ?_, by simp⟩
  rw [h.redirects_eq, h.length_eq, advanceUnless_rip]
  by_cases hflag : getFlag s f = want
  · simp [jumpIf, jumpTaken, hflag, writeReg]
  · simp [jumpIf, jumpTaken, hflag]

/-- An instruction that redirects is one of the opcodes 0x28 to 0x33 (30_encoding.md R47). -/
theorem redirects_eq_false_or_jump (i : Instr) (s : State) :
    redirects i s = false ∨ 0x28 ≤ (opcodeOf i).toNat ∧ (opcodeOf i).toNat ≤ 0x33 := by
  cases i with
  | jmp | jmpr | jz | jnz | js | jns | jc | jnc | jo | jno | jdz | jndz =>
    refine .inr ?_
    rw [opcodeOf_eq_of_encode rfl]
    decide
  | _ => exact .inl rfl

end Sys2Proof.Machine
end

section
/-! The obligations of 40_execution_loop.md. -/

namespace Sys2Proof.Machine

/-- Settles O4: an unassigned opcode has no row, and the row of an assigned one says which fields are checked for what. -/
theorem decodeChecksInFixedOrder : Obligations.DecodeChecksInFixedOrder := by
  intro first e1 e2
  simp only [← opField_toNat, ← raField_toNat, ← rbField_toNat, BitVec.ofNat_toNat, BitVec.setWidth_eq]
  rcases decode_checks first e1 e2 with ⟨hun, h⟩ | ⟨uses, huses, hchecks⟩
  · rwa [if_pos hun]
  · obtain ⟨hassigned, hopsA, hopsRR⟩ := ops_of_mem_tableUses _ uses huses
    simpa only [ChecksInOrder, hassigned, hopsA, hopsRR, if_false, Bool.not_eq_true, Bool.not_eq_false] using hchecks

/-- Settles O8: every handler answers a next state, to which the loop applies its policy. -/
theorem stepRunsTheDecodedInstruction : Obligations.StepRunsTheDecodedInstruction := by
  intro s i hrun hd
  obtain ⟨t, he, _⟩ := exec_effect i s
  exact ⟨t, he, step_of_instr hrun hd he⟩

/-- Settles O13, by induction on how the state was reached. -/
theorem reachableStatesHaveTheInvariant : Obligations.ReachableStatesHaveTheInvariant := by
  intro s h
  induction h with
  | reset => exact resetHasTheInvariant
  | step _ hstep ih => exact invariant_of_step ih hstep
  | event e _ hevent ih => exact invariant_of_hostEvent ih hevent

/-- Settles O15: JMP and JMPR redirect always, and the ten conditional jumps are one jump with ten conditions. -/
theorem jumpsContinueExactlyAtTheirTarget : Obligations.JumpsContinueExactlyAtTheirTarget := by
  refine fun s hrun => ⟨fun a hd => ⟨_, step_of_instr hrun hd rfl, rfl⟩, fun r hd => ⟨_, step_of_instr hrun hd rfl, rfl⟩,
    fun mk f want hmem a hd => ?_⟩
  have hjump : ConditionalJump mk f want := by
    simp only [List.mem_cons, List.not_mem_nil, or_false, Prod.mk.injEq] at hmem
    obtain ⟨rfl, rfl, rfl⟩ | ⟨rfl, rfl, rfl⟩ | ⟨rfl, rfl, rfl⟩ | ⟨rfl, rfl, rfl⟩ | ⟨rfl, rfl, rfl⟩ | ⟨rfl, rfl, rfl⟩ |
      ⟨rfl, rfl, rfl⟩ | ⟨rfl, rfl, rfl⟩ | ⟨rfl, rfl, rfl⟩ | ⟨rfl, rfl, rfl⟩ := hmem <;>
    exact ⟨fun _ _ => rfl, fun _ _ => rfl, fun _ => instrLength_eq_length_encode _⟩
  exact hjump.step_eq hrun hd

/-- Settles O16: no instruction outside the jumps redirects, and one that does not name `rip` leaves it to the advance. -/
theorem nonJumpsAdvanceByTheirLength : Obligations.NonJumpsAdvanceByTheirLength := by
  intro s u i hrun hd he hnot
  have hredirects := (redirects_eq_false_or_jump i s).resolve_right hnot
  have hstep := step_of_instr hrun hd he
  rw [hredirects] at hstep
  refine ⟨_, hstep, rfl, fun hrip => ?_⟩
  exact congrArg (· + BitVec.ofNat 16 (instrLength i)) ((effect_of_exec he).readReg_of_not_mem hrip)

/-- Settles O23: a handler changes `status` at HLT alone, and of the host's events only reset and start in Ready write it. -/
theorem statusChangesOnlyByTheListedTransitions : Obligations.StatusChangesOnlyByTheListedTransitions := by
  refine fun s t => ⟨fun h hne => ?_, fun e h hne => ?_⟩
  · obtain ⟨_, rfl⟩ | ⟨hrun, hd, rfl⟩ | ⟨hrun, id, hd, rfl⟩ | ⟨hrun, i, u, hd, he, rfl⟩ := step_cases h
    · exact absurd rfl hne
    · exact ⟨hrun, .inr ⟨rfl, by simp [hd]⟩⟩
    · exact ⟨hrun, .inr ⟨rfl, by simp [hd]⟩⟩
    · rw [advanceUnless_status] at hne ⊢
      rcases (effect_of_exec he).sameLifecycle_or_halt with ⟨hstatus, _⟩ | ⟨rs, rfl, rfl⟩
      · exact absurd hstatus hne
      · exact ⟨hrun, .inl ⟨rfl, rs, hd⟩⟩
  · obtain hreset | ⟨image, _, _, rfl⟩ | ⟨entry, _, rfl⟩ | ⟨hstart, hready, rfl⟩ | ⟨_, _, rfl⟩ := hostEvent_cases h
    · exact .inl hreset
    · exact absurd rfl hne
    · exact absurd rfl hne
    · exact .inr ⟨hstart, hready, rfl⟩
    · exact absurd rfl hne

end Sys2Proof.Machine
end

section
/-! SUPPORT. The encoding of a format from its encoder and its decoder alone, and what the handlers of 41_data_movement.md do,
by the operation they end in. -/

namespace Sys2Proof.Machine

/-! ### Encodings, with the length that the encoder gives -/

theorem encodedRR_of_layout {op : BitVec 6} {mk : Reg → Reg → Instr}
    (he : ∀ a b, encode (mk a b) = [firstWord op a.toField b.toField])
    (hd : ∀ ra rb e1 e2, decodeFields op ra rb e1 e2 = decodeRR mk ra rb) : EncodedRR op.toNat mk :=
  encodedRR_of he (fun a b => by rw [instrLength_eq_length_encode, he]; rfl) hd

theorem encodedR_of_layout {op : BitVec 6} {hasExt : Bool} {mk : Reg → Word → Instr}
    (he : ∀ a x, encode (mk a x) = firstWord op a.toField 0 :: (if hasExt then [x] else []))
    (hd : ∀ ra rb e1 e2, decodeFields op ra rb e1 e2 = decodeR (fun a => mk a e1) ra rb) :
    EncodedR op.toNat hasExt mk :=
  encodedR_of he (fun a x => by rw [instrLength_eq_length_encode, he]; cases hasExt <;> rfl) hd

theorem encodedA_of_layout {op : BitVec 6} {hasImm : Bool} {mk : Word → Word → Instr}
    (he : ∀ x y, encode (mk x y) = firstWord op 0 0 :: x :: (if hasImm then [y] else []))
    (hd : ∀ ra rb e1 e2, decodeFields op ra rb e1 e2 = decodeA (mk e1 e2) ra rb) : EncodedA op.toNat hasImm mk :=
  encodedA_of he (fun x y => by rw [instrLength_eq_length_encode, he]; cases hasImm <;> rfl) hd

/-! ### Handlers by the operation they end in -/

/-- After a handler that does not redirect, the loop adds as many Words as the encoder writes. -/
theorem thenAdvances_length_encode {i : Instr} {s t : State} (he : exec i s = .next t) (hr : redirects i s = false) :
    ThenAdvances i (encode i).length s t :=
  thenAdvances_of he hr (instrLength_eq_length_encode i)

/-- A handler that ends in one register write: MOV, LDI, LD, LDR, RDF. -/
theorem spec_of_exec_eq_writeReg {i : Instr} {s : State} {rd : Reg} {v : Word} (he : exec i s = .next (writeReg s rd v))
    (hr : redirects i s = false) :
    ∃ t, exec i s = .next t ∧ readReg t rd = v ∧ OnlyRegs [rd] s t ∧ ThenAdvances i (encode i).length s t :=
  ⟨_, he, readReg_writeReg_self .., onlyRegs_writeReg .., thenAdvances_length_encode he hr⟩

/-- A handler that ends in one store: ST, STR, STI. -/
theorem spec_of_exec_eq_store {i : Instr} {s : State} {dst : MemOperand} {addr v : Word}
    (he : exec i s = .next (store dst v s)) (hr : redirects i s = false) (ha : effectiveAddress s dst = addr) :
    ∃ t, exec i s = .next t ∧ ThenAdvances i (encode i).length s t ∧ effectiveAddress s dst = addr ∧
      ∀ a, effectiveAddress s dst = a → memRead t a = v ∧ OnlyCell a s t :=
  ⟨_, he, thenAdvances_length_encode he hr, ha, by rintro _ rfl; exact store_spec dst v s⟩

/-! ### XCHG: two register writes -/

theorem OnlyRegs.trans {rs qs : List Reg} {s t u : State} (h : OnlyRegs rs s t) (h' : OnlyRegs qs t u) :
    OnlyRegs (rs ++ qs) s u := by
  obtain ⟨hregs, hflags, hmem, hstatus, hresult, hfault⟩ := h
  obtain ⟨hregs', hflags', hmem', hstatus', hresult', hfault'⟩ := h'
  refine ⟨fun r hr => ?_, hflags'.trans hflags, fun n => (hmem' n).trans (hmem n), hstatus'.trans hstatus,
    hresult'.trans hresult, hfault'.trans hfault⟩
  obtain ⟨hrs, hqs⟩ := not_or.mp (List.mem_append.not.mp hr)
  exact (hregs' r hqs).trans (hregs r hrs)

/-- Where both are one register, the second write writes back what it held. -/
theorem readReg_exchange (s : State) (ra rb : Reg) :
    readReg (writeReg (writeReg s ra (readReg s rb)) rb (readReg s ra)) ra = readReg s rb := by
  by_cases h : ra = rb
  · subst h
    exact readReg_writeReg_self ..
  · rw [readReg_writeReg_of_ne _ _ h, readReg_writeReg_self]

/-! ### RDF and WRF: the flags as a Word -/

theorem Flag.bit_lt (f : Flag) : f.bit < 5 := by cases f <;> decide

/-- The zero-extended flags register has each flag in its bit (10_state.md R14). -/
theorem getLsbD_setWidth_flags (s : State) (f : Flag) : (s.flags.setWidth 16).getLsbD f.bit = getFlag s f := by
  have hbit : f.bit < 16 := f.bit_lt.trans (by decide)
  simp [getFlag, hbit]

theorem getLsbD_setWidth_flags_of_le (s : State) {k : Nat} (hk : 5 ≤ k) : (s.flags.setWidth 16).getLsbD k = false := by
  rw [BitVec.getLsbD_setWidth, BitVec.getLsbD_of_ge _ _ hk, Bool.and_false]

/-- Flags taken from bits 4 to 0 of a Word (10_state.md R14). -/
theorem getFlag_extractLsb' (s : State) (v : Word) (f : Flag) :
    getFlag { s with flags := v.extractLsb' 0 5 } f = v.getLsbD f.bit := by
  simp [getFlag, f.bit_lt]

theorem onlyRegsAndFlags_flags (s : State) (fl : BitVec 5) : OnlyRegsAndFlags [] s { s with flags := fl } :=
  ⟨fun r _ => by cases r <;> rfl, fun _ => rfl, rfl, rfl, rfl⟩

end Sys2Proof.Machine
end

section
/-! The obligations of 41_data_movement.md. -/

namespace Sys2Proof.Machine

/-- Settles O24: the handler is one register write, of what the source held. -/
theorem movCopiesARegister : Obligations.MovCopiesARegister :=
  ⟨encodedRR_of_layout (op := 0x01) (fun _ _ => rfl) (fun _ _ _ _ => rfl), fun _ _ _ => spec_of_exec_eq_writeReg rfl rfl⟩

/-- Settles O25: the handler is one register write, of the extension Word. -/
theorem ldiLoadsTheImmediate : Obligations.LdiLoadsTheImmediate :=
  ⟨encodedR_of_layout (op := 0x02) (fun _ _ => rfl) (fun _ _ _ _ => rfl), fun _ _ _ => spec_of_exec_eq_writeReg rfl rfl⟩

/-- Settles O26: the handler is one register write, of the Word at the extension Word. -/
theorem ldLoadsFromItsAddress : Obligations.LdLoadsFromItsAddress :=
  ⟨encodedR_of_layout (op := 0x03) (fun _ _ => rfl) (fun _ _ _ _ => rfl), fun _ _ _ => spec_of_exec_eq_writeReg rfl rfl⟩

/-- Settles O27: the handler is one store, at the extension Word. -/
theorem stStoresToItsAddress : Obligations.StStoresToItsAddress :=
  ⟨encodedR_of_layout (op := 0x04) (fun _ _ => rfl) (fun _ _ _ _ => rfl), fun _ _ _ => spec_of_exec_eq_store rfl rfl rfl⟩

/-- Settles O28: the handler is one register write, of the Word at what the source held before it. -/
theorem ldrLoadsThroughARegister : Obligations.LdrLoadsThroughARegister :=
  ⟨encodedRR_of_layout (op := 0x05) (fun _ _ => rfl) (fun _ _ _ _ => rfl), fun _ _ _ => spec_of_exec_eq_writeReg rfl rfl⟩

/-- Settles O29: the handler is one store, at what the first register holds. -/
theorem strStoresThroughARegister : Obligations.StrStoresThroughARegister :=
  ⟨encodedRR_of_layout (op := 0x06) (fun _ _ => rfl) (fun _ _ _ _ => rfl), fun _ _ _ => spec_of_exec_eq_store rfl rfl rfl⟩

/-- Settles O30: the handler is one store, of the second extension Word at the first. -/
theorem stiStoresTheImmediate : Obligations.StiStoresTheImmediate :=
  ⟨encodedA_of_layout (op := 0x07) (fun _ _ => rfl) (fun _ _ _ _ => rfl), fun _ _ _ => spec_of_exec_eq_store rfl rfl rfl⟩

/-- Settles O31: both Words written were read before either write, and two writes change the two registers only. -/
theorem xchgExchangesTwoRegisters : Obligations.XchgExchangesTwoRegisters :=
  ⟨encodedRR_of_layout (op := 0x08) (fun _ _ => rfl) (fun _ _ _ _ => rfl), fun ra rb s =>
    ⟨_, rfl, readReg_exchange s ra rb, readReg_writeReg_self .., (onlyRegs_writeReg ..).trans (onlyRegs_writeReg ..),
      thenAdvances_length_encode rfl rfl⟩⟩

/-- Settles O32: the handler is one register write, of the zero-extended flags. -/
theorem rdfReadsTheFlags : Obligations.RdfReadsTheFlags := by
  refine ⟨encodedR_of_layout (op := 0x09) (fun _ _ => rfl) (fun _ _ _ _ => rfl), fun rd s => ?_⟩
  obtain ⟨t, he, hread, hframe, hadvance⟩ := spec_of_exec_eq_writeReg (i := .rdf rd) (s := s) rfl rfl
  refine ⟨t, he, fun f => ?_, fun k hk => ?_, hframe, hadvance⟩
  · rw [hread, getLsbD_setWidth_flags]
  · rw [hread, getLsbD_setWidth_flags_of_le s hk]

/-- Settles O33: the handler replaces the flags register by bits 4 to 0 of the source and writes nothing else. -/
theorem wrfWritesTheFlags : Obligations.WrfWritesTheFlags :=
  ⟨encodedR_of_layout (op := 0x0A) (fun _ _ => rfl) (fun _ _ _ _ => rfl), fun rs s =>
    ⟨_, rfl, getFlag_extractLsb' s (readReg s rs), onlyRegsAndFlags_flags .., thenAdvances_length_encode rfl rfl⟩⟩

end Sys2Proof.Machine
end

section
/-! SUPPORT. The handlers of 42_arithmetic.md as equations: the operation each ends in, with result, carry and overflow in plain
arithmetic. -/

namespace Sys2Proof.Machine

/-! ### Results, carries and overflows -/

/-- A difference is zero exactly when its operands are equal (42_arithmetic.md R84). -/
theorem toNat_sub_eq_zero_iff (a b : Word) : (a - b).toNat = 0 ↔ a = b :=
  (BitVec.toNat_inj (y := 0#16)).trans sub_eq_zero

/-- The sign bit of a difference is the sign of the signed difference reduced to 16 bits. -/
theorem le_toNat_sub_iff (a b : Word) : 0x8000 ≤ (a - b).toNat ↔ (a.toInt - b.toInt).bmod (2 ^ 16) < 0 := by
  rw [← BitVec.toInt_sub, BitVec.toInt_neg_iff]
  omega

/-- The reduction to 16 bits keeps the sign of a signed difference that is in range and turns it where it is not, so sign and
overflow together tell the signed order (42_arithmetic.md R84). -/
theorem sign_ne_overflow_iff (a b : Word) :
    decide (0x8000 ≤ (a - b).toNat) ≠ decide (OutOfRange (a.toInt - b.toInt)) ↔ a.toInt < b.toInt := by
  have ha := a.le_toInt
  have ha' := a.toInt_lt
  have hb := b.le_toInt
  have hb' := b.toInt_lt
  rw [ne_eq, decide_eq_decide, le_toNat_sub_iff]
  by_cases hout : OutOfRange (a.toInt - b.toInt)
  · have hflip : (a.toInt - b.toInt).bmod (2 ^ 16) < 0 ↔ 0 < a.toInt - b.toInt := by
      rw [Int.bmod_def]
      split <;> omega
    simp only [hout, hflip, iff_true]
    omega
  · have hkeep : (a.toInt - b.toInt).bmod (2 ^ 16) = a.toInt - b.toInt := Int.bmod_eq_of_le (by omega) (by omega)
    simp only [hout, hkeep, iff_false]
    omega

/-- The product of two signed Words fits 32 bits, so its halves hold it exactly (42_arithmetic.md R88). -/
theorem toInt_productHigh_append_productLow (a b : Word) :
    (productHigh a b ++ productLow a b).toInt = a.toInt * b.toInt := by
  have hle := BitVec.toInt_mul_toInt_le (x := a) (y := b)
  have hge := BitVec.le_toInt_mul_toInt (x := a) (y := b)
  rw [productHigh_append_productLow, product32, signedProduct]
  exact BitVec.toInt_ofInt_eq_self (by decide) (by omega) (by omega)

/-! ### Quotient and remainder (42_arithmetic.md R89) -/

theorem eq_quotient_mul_add_remainder (n d : Int) : n = quotient n d * d + remainder n d := by
  rw [remainder]
  omega

theorem remainder_eq_tmod (n d : Int) : remainder n d = n.tmod d := by
  rw [remainder, quotient, Int.tmod_def, Int.mul_comm]

theorem abs_remainder_lt (n : Int) {d : Int} (hd : d ≠ 0) : |remainder n d| < |d| := by
  rw [remainder_eq_tmod, Int.abs_eq_natAbs, Int.abs_eq_natAbs, Int.natAbs_tmod]
  exact_mod_cast Nat.mod_lt _ (Int.natAbs_pos.mpr hd)

theorem remainder_nonneg {n : Int} (d : Int) (hn : 0 ≤ n) : 0 ≤ remainder n d := by
  rw [remainder_eq_tmod]
  exact Int.tmod_nonneg d hn

theorem remainder_nonpos {n : Int} (d : Int) (hn : n ≤ 0) : remainder n d ≤ 0 := by
  have hneg : 0 ≤ (-n).tmod d := Int.tmod_nonneg d (Int.neg_nonneg_of_nonpos hn)
  rw [Int.neg_tmod] at hneg
  rw [remainder_eq_tmod]
  exact Int.neg_nonneg.mp hneg

/-! ### The handlers -/

theorem exec_add (rd rs : Reg) (s : State) :
    exec (.add rd rs) s = .next (writeResult rd (readReg s rd + readReg s rs)
      (decide (0xFFFF < (readReg s rd).toNat + (readReg s rs).toNat))
      (decide (OutOfRange ((readReg s rd).toInt + (readReg s rs).toInt))) s) := by
  simp [exec, execAdd, sumWord_false, sumCarry_eq, sumOverflow_eq]

theorem exec_adc (rd rs : Reg) (s : State) :
    exec (.adc rd rs) s = .next (writeResult rd
      (BitVec.ofNat 16 ((readReg s rd).toNat + (readReg s rs).toNat + (getFlag s .carry).toNat))
      (decide (0xFFFF < (readReg s rd).toNat + (readReg s rs).toNat + (getFlag s .carry).toNat))
      (decide (OutOfRange ((readReg s rd).toInt + (readReg s rs).toInt + (getFlag s .carry).toNat))) s) := by
  simp only [exec, execAdc, sumWord, wideSum, sumCarry_eq, sumOverflow_eq]

theorem exec_cmp (ra rb : Reg) (s : State) :
    exec (.cmp ra rb) s = .next (setFlags (readReg s ra - readReg s rb)
      (decide ((readReg s ra).toNat < (readReg s rb).toNat))
      (decide (OutOfRange ((readReg s ra).toInt - (readReg s rb).toInt))) s) := by
  simp only [exec, execCmp, differenceWord_eq, borrow, differenceOverflow_eq]

theorem exec_inc (rd : Reg) (s : State) :
    exec (.inc rd) s = .next (writeResult rd (readReg s rd + 1) (decide ((readReg s rd).toNat = 0xFFFF))
      (decide ((readReg s rd).toNat = 0x7FFF)) s) := by
  simp only [exec, execInc, sumWord_false, beq_ofNat _ (show 0xFFFF < 65536 by decide),
    beq_ofNat _ (show 0x7FFF < 65536 by decide)]

theorem exec_dec (rd : Reg) (s : State) :
    exec (.dec rd) s = .next (writeResult rd (readReg s rd - 1) (decide ((readReg s rd).toNat = 0))
      (decide ((readReg s rd).toNat = 0x8000)) s) := by
  simp only [exec, execDec, differenceWord_eq, beq_ofNat _ (show 0 < 65536 by decide),
    beq_ofNat _ (show 0x8000 < 65536 by decide)]

theorem exec_neg (rd : Reg) (s : State) :
    exec (.neg rd) s = .next (writeResult rd (-readReg s rd) (decide ((readReg s rd).toNat ≠ 0))
      (decide ((readReg s rd).toNat = 0x8000)) s) := by
  simp only [exec, execNeg, differenceWord_eq, bne, beq_ofNat _ (show 0 < 65536 by decide),
    beq_ofNat _ (show 0x8000 < 65536 by decide), decide_not, BitVec.ofNat_eq_ofNat, BitVec.zero_sub]

theorem exec_mul (rd rs : Reg) (s : State) :
    exec (.mul rd rs) s = .next (writeResults rd (productLow (readReg s rd) (readReg s rs)) rs
      (productHigh (readReg s rd) (readReg s rs))
      (decide (OutOfRange ((readReg s rd).toInt * (readReg s rs).toInt)))
      (decide (OutOfRange ((readReg s rd).toInt * (readReg s rs).toInt))) s) := by
  simp only [exec, execMul, productOverflow, not_fitsSigned, signedProduct]

theorem exec_div_of_eq_zero {rd rs : Reg} {s : State} (hd : (readReg s rs).toInt = 0) :
    exec (.div rd rs) s = .next (setDivideByZero s) :=
  if_pos hd

theorem exec_div_of_ne_zero {rd rs : Reg} {s : State} (hd : (readReg s rs).toInt ≠ 0) :
    exec (.div rd rs) s = .next (writeResults rd
      (BitVec.ofInt 16 (quotient (readReg s rd).toInt (readReg s rs).toInt)) rs
      (BitVec.ofInt 16 (remainder (readReg s rd).toInt (readReg s rs).toInt))
      (decide (quotient (readReg s rd).toInt (readReg s rs).toInt = 32768))
      (decide (quotient (readReg s rd).toInt (readReg s rs).toInt = 32768)) s) :=
  if_neg hd

/-! ### What the handlers leave -/

/-- A handler of one Word that ends in `writeResult`: ADD, ADC, INC, DEC, NEG. -/
theorem writesResult_of_exec_eq {i : Instr} {s : State} {rd : Reg} {res : Word} {c v : Bool}
    (he : exec i s = .next (writeResult rd res c v s)) (hr : redirects i s = false) (hl : (encode i).length = 1) :
    WritesResult i s rd res c v :=
  writesResult_of he hr ((instrLength_eq_length_encode i).trans hl)

/-- What two writes and the flag rule leave: the second register as written, the first where it is another one. -/
theorem writeResults_spec (s : State) (rd rs : Reg) (x y : Word) (c v : Bool) :
    readReg (writeResults rd x rs y c v s) rs = y ∧ (rd ≠ rs → readReg (writeResults rd x rs y c v s) rd = x) ∧
      FlagsOf (writeResults rd x rs y c v s) x c v ∧ OnlyRegsAndFlags [rd, rs] s (writeResults rd x rs y c v s) :=
  ⟨by simp, fun hne => by simp [hne], flagsOf_setFlags .., onlyRegsAndFlags_writeResults ..⟩

/-- DIV by zero sets `F.D` and changes nothing else (42_arithmetic.md R89). -/
theorem setDivideByZero_spec (s : State) :
    getFlag (setDivideByZero s) .divideByZero = true ∧
      (∀ f, f ≠ .divideByZero → getFlag (setDivideByZero s) f = getFlag s f) ∧
      OnlyRegsAndFlags [] s (setDivideByZero s) :=
  ⟨by simp [getFlag_setDivideByZero], fun f hf => by simp [getFlag_setDivideByZero, hf], onlyRegsAndFlags_flags s _⟩

end Sys2Proof.Machine
end

section
/-! The obligations of 42_arithmetic.md. -/

namespace Sys2Proof.Machine

/-- Settles O34: the handler is one result, the sum, with the carry and overflow of the exact sums. -/
theorem addWritesSumAndFlags : Obligations.AddWritesSumAndFlags :=
  ⟨encodedRR_of_layout (op := 0x10) (fun _ _ => rfl) (fun _ _ _ _ => rfl), fun rd rs s =>
    writesResult_of_exec_eq (exec_add rd rs s) rfl rfl⟩

/-- Settles O35: as ADD, with `F.C` of the state before the handler in both sums. -/
theorem adcAddsTheCarry : Obligations.AdcAddsTheCarry := by
  refine ⟨encodedRR_of_layout (op := 0x11) (fun _ _ => rfl) (fun _ _ _ _ => rfl), fun rd rs s => ?_⟩
  rw [← Bool.cond_eq_ite]
  exact writesResult_of_exec_eq (exec_adc rd rs s) rfl rfl

/-- Settles O36: the handler is the flag rule on the difference and writes no register. -/
theorem cmpSetsFlagsOfTheDifference : Obligations.CmpSetsFlagsOfTheDifference :=
  ⟨encodedRR_of_layout (op := 0x12) (fun _ _ => rfl) (fun _ _ _ _ => rfl), fun ra rb s =>
    ⟨_, exec_cmp ra rb s, onlyRegsAndFlags_setFlags .., thenAdvances_length_encode (exec_cmp ra rb s) rfl,
      flagsOf_setFlags ..⟩⟩

/-- Settles O37: the flags are those of the difference, from which equality and both orders are read. -/
theorem cmpOrdersItsOperands : Obligations.CmpOrdersItsOperands := by
  intro ra rb s t h
  obtain rfl := Host.Outcome.next.inj ((exec_cmp ra rb s).symm.trans h)
  obtain ⟨hcarry, hzero, hsign, hoverflow, _⟩ := flagsOf_setFlags s (readReg s ra - readReg s rb)
    (decide ((readReg s ra).toNat < (readReg s rb).toNat))
    (decide (OutOfRange ((readReg s ra).toInt - (readReg s rb).toInt)))
  rw [hcarry, hzero, hsign, hoverflow, decide_eq_true_iff, decide_eq_true_iff]
  exact ⟨toNat_sub_eq_zero_iff .., Iff.rfl, sign_ne_overflow_iff ..⟩

/-- Settles O38: the handler is one result, the sum with 1, which carries and overflows at one value each. -/
theorem incAddsOne : Obligations.IncAddsOne :=
  ⟨encodedR_of_layout (op := 0x13) (fun _ _ => rfl) (fun _ _ _ _ => rfl), fun rd s =>
    writesResult_of_exec_eq (exec_inc rd s) rfl rfl⟩

/-- Settles O39: the handler is one result, the difference with 1, which borrows and overflows at one value each. -/
theorem decSubtractsOne : Obligations.DecSubtractsOne :=
  ⟨encodedR_of_layout (op := 0x14) (fun _ _ => rfl) (fun _ _ _ _ => rfl), fun rd s =>
    writesResult_of_exec_eq (exec_dec rd s) rfl rfl⟩

/-- Settles O40: the handler is one result, the difference of 0 and the register. -/
theorem negNegates : Obligations.NegNegates :=
  ⟨encodedR_of_layout (op := 0x15) (fun _ _ => rfl) (fun _ _ _ _ => rfl), fun rd s =>
    writesResult_of_exec_eq (exec_neg rd s) rfl rfl⟩

/-- Settles O41: the handler writes the two halves of the product, which are exact together. -/
theorem mulWritesTheDoubleWidthProduct : Obligations.MulWritesTheDoubleWidthProduct :=
  ⟨encodedRR_of_layout (op := 0x16) (fun _ _ => rfl) (fun _ _ _ _ => rfl), fun rd rs s =>
    ⟨_, _, _, exec_mul rd rs s, thenAdvances_length_encode (exec_mul rd rs s) rfl,
      toInt_productHigh_append_productLow .., writeResults_spec ..⟩⟩

/-- Settles O42: by whether the divisor is zero; where it is not, quotient and remainder are those of the division that rounds
toward zero. -/
theorem divWritesQuotientAndRemainder : Obligations.DivWritesQuotientAndRemainder := by
  refine ⟨encodedRR_of_layout (op := 0x17) (fun _ _ => rfl) (fun _ _ _ _ => rfl), fun rd rs s => ?_⟩
  by_cases hd : (readReg s rs).toInt = 0
  · have he := exec_div_of_eq_zero (rd := rd) hd
    refine ⟨_, he, thenAdvances_length_encode he rfl, ?_⟩
    rw [if_pos hd]
    exact setDivideByZero_spec s
  · have he := exec_div_of_ne_zero (rd := rd) hd
    refine ⟨_, he, thenAdvances_length_encode he rfl, ?_⟩
    rw [if_neg hd]
    exact ⟨_, _, eq_quotient_mul_add_remainder .., abs_remainder_lt _ hd, remainder_nonneg _, remainder_nonpos _,
      writeResults_spec ..⟩

end Sys2Proof.Machine
end

section
/-! The obligations of 43_logic.md. -/

namespace Sys2Proof.Machine

/-- Settles O43: each handler is one result, the bitwise operation on the two registers, with C and V cleared (R91). -/
theorem andOrXorCombineBitByBit : Obligations.AndOrXorCombineBitByBit := by
  refine ⟨encodedRR_of_layout (op := 0x18) (fun _ _ => rfl) (fun _ _ _ _ => rfl),
    encodedRR_of_layout (op := 0x19) (fun _ _ => rfl) (fun _ _ _ _ => rfl),
    encodedRR_of_layout (op := 0x1A) (fun _ _ => rfl) (fun _ _ _ _ => rfl), fun rd rs s => ⟨?_, ?_, ?_⟩⟩
  · exact ⟨readReg s rd &&& readReg s rs, fun _ => BitVec.getLsbD_and, writesResult_of_exec_eq rfl rfl rfl⟩
  · exact ⟨readReg s rd ||| readReg s rs, fun _ => BitVec.getLsbD_or, writesResult_of_exec_eq rfl rfl rfl⟩
  · exact ⟨readReg s rd ^^^ readReg s rs, fun _ => BitVec.getLsbD_xor, writesResult_of_exec_eq rfl rfl rfl⟩

/-- Settles O44: the handler is one result, the complement, which is the distance to the greatest Word. -/
theorem notComplements : Obligations.NotComplements :=
  ⟨encodedR_of_layout (op := 0x1B) (fun _ _ => rfl) (fun _ _ _ _ => rfl), fun rd s =>
    ⟨~~~ readReg s rd, BitVec.toNat_not, writesResult_of_exec_eq rfl rfl rfl⟩⟩

/-- Settles O45: the handler is the flag rule on the bitwise AND and writes no register. -/
theorem testSetsFlagsOfTheAnd : Obligations.TestSetsFlagsOfTheAnd :=
  ⟨encodedRR_of_layout (op := 0x1C) (fun _ _ => rfl) (fun _ _ _ _ => rfl), fun ra rb s =>
    ⟨_, readReg s ra &&& readReg s rb, rfl, thenAdvances_length_encode rfl rfl, fun _ => BitVec.getLsbD_and,
      flagsOf_setFlags .., onlyRegsAndFlags_setFlags ..⟩⟩

end Sys2Proof.Machine
end

section
/-! SUPPORT. The two concatenations that the rules of 44_shift_rotate.md write, bit by bit and as numbers, and the handlers of the
family as equations in them. -/

namespace Sys2Proof.Machine

/-! ### One bit shifted in at either end -/

/-- `{b, a[15:1]}`: every bit of `a` one place down, `b` in bit 15 (44_shift_rotate.md R99, R100, R102, R104). -/
def shiftInHigh (b : Bool) (a : Word) : Word := BitVec.cons b (a.extractLsb' 1 15)

/-- `{a[14:0], b}`: every bit of `a` one place up, `b` in bit 0 (44_shift_rotate.md R101, R103). -/
def shiftInLow (a : Word) (b : Bool) : Word := BitVec.concat (a.extractLsb' 0 15) b

theorem getLsbD_shiftInHigh_fifteen (b : Bool) (a : Word) : (shiftInHigh b a).getLsbD 15 = b := by
  rw [shiftInHigh, BitVec.getLsbD_cons, if_pos rfl]

theorem getLsbD_shiftInHigh (b : Bool) (a : Word) {k : Nat} (hk : k < 15) :
    (shiftInHigh b a).getLsbD k = a.getLsbD (k + 1) := by
  simp [shiftInHigh, BitVec.getLsbD_cons, hk, hk.ne, Nat.add_comm]

theorem getLsbD_shiftInLow_zero (a : Word) (b : Bool) : (shiftInLow a b).getLsbD 0 = b := BitVec.getLsbD_concat_zero

theorem getLsbD_shiftInLow_succ (a : Word) (b : Bool) {k : Nat} (hk : k < 15) :
    (shiftInLow a b).getLsbD (k + 1) = a.getLsbD k := by
  simp [shiftInLow, BitVec.getLsbD_concat_succ, hk]

/-- The bit that left at the top, shifted in again there, restores the Word: no other bit was lost. -/
theorem shiftInHigh_shiftInLow (a : Word) (b : Bool) : shiftInHigh (a.getLsbD 15) (shiftInLow a b) = a := by
  apply BitVec.eq_of_getLsbD_eq
  intro k hk
  rcases Nat.lt_succ_iff_lt_or_eq.mp hk with hlt | rfl
  · rw [getLsbD_shiftInHigh _ _ hlt, getLsbD_shiftInLow_succ _ _ hlt]
  · exact getLsbD_shiftInHigh_fifteen ..

theorem toNat_shiftInHigh (b : Bool) (a : Word) : (shiftInHigh b a).toNat = b.toNat * 32768 + a.toNat / 2 := by
  have hlow : (a.extractLsb' 1 15).toNat = a.toNat / 2 := by
    rw [BitVec.extractLsb'_toNat, Nat.shiftRight_eq_div_pow]
    omega
  rw [shiftInHigh, BitVec.toNat_cons', hlow, Nat.shiftLeft_eq]

/-- Keeping the sign bit makes the move down a division of the signed value, rounded down (44_shift_rotate.md R100). -/
theorem toInt_shiftInHigh_sign (a : Word) : (shiftInHigh (a.getLsbD 15) a).toInt = Int.fdiv a.toInt 2 := by
  rw [Int.fdiv_eq_ediv_of_nonneg _ (by decide), BitVec.toInt_eq_toNat_cond, BitVec.toInt_eq_toNat_cond, toNat_shiftInHigh,
    getLsbD_fifteen]
  by_cases hneg : 0x8000 ≤ a.toNat
  · simp only [hneg, decide_true, Bool.toNat_true]
    omega
  · simp only [hneg, decide_false, Bool.toNat_false]
    omega

/-! ### Doubling (44_shift_rotate.md R98) -/

/-- Bit 14 of a Word, without its bit 15, as a comparison. -/
theorem getLsbD_fourteen (a : Word) : a.getLsbD 14 = decide (0x4000 ≤ a.toNat % 0x8000) := by
  rw [BitVec.getLsbD, Nat.testBit_eq_decide_div_mod_eq, decide_eq_decide]
  omega

/-- The bit that doubling moves out of the Word. -/
theorem testBit_sixteen_double (a : Word) : (a.toNat * 2).testBit 16 = a.getLsbD 15 := by
  rw [testBit_sixteen (by omega), getLsbD_fifteen, decide_eq_decide]
  omega

/-- Doubling changes the sign exactly where the doubled signed value is out of range. -/
theorem xor_fifteen_fourteen (a : Word) : (a.getLsbD 15 ^^ a.getLsbD 14) = decide (OutOfRange (a.toInt * 2)) := by
  rw [getLsbD_fifteen, getLsbD_fourteen, BitVec.toInt_eq_toNat_cond]
  by_cases hneg : 0x8000 ≤ a.toNat
  · rw [if_neg (by omega), decide_eq_true hneg, Bool.true_xor, ← decide_not, decide_eq_decide]
    omega
  · rw [if_pos (by omega), decide_eq_false hneg, Bool.false_xor, decide_eq_decide]
    omega

/-! ### The handlers -/

theorem exec_shl (rd : Reg) (s : State) :
    exec (.shl rd) s = .next (writeResult rd (BitVec.ofNat 16 ((readReg s rd).toNat * 2)) ((readReg s rd).getLsbD 15)
      ((readReg s rd).getLsbD 15 ^^ (readReg s rd).getLsbD 14) s) := by
  simp only [exec, execShl, testBit_sixteen_double]

theorem exec_shr (rd : Reg) (s : State) :
    exec (.shr rd) s = .next (writeResult rd (shiftInHigh false (readReg s rd)) ((readReg s rd).getLsbD 0) false s) := rfl

theorem exec_sar (rd : Reg) (s : State) :
    exec (.sar rd) s = .next (writeResult rd (shiftInHigh ((readReg s rd).getLsbD 15) (readReg s rd))
      ((readReg s rd).getLsbD 0) false s) := rfl

theorem exec_rol (rd : Reg) (s : State) :
    exec (.rol rd) s = .next (writeResult rd (shiftInLow (readReg s rd) ((readReg s rd).getLsbD 15)) false false s) := rfl

theorem exec_ror (rd : Reg) (s : State) :
    exec (.ror rd) s = .next (writeResult rd (shiftInHigh ((readReg s rd).getLsbD 0) (readReg s rd)) false false s) := rfl

theorem exec_rcl (rd : Reg) (s : State) :
    exec (.rcl rd) s = .next (writeResult rd (shiftInLow (readReg s rd) (getFlag s .carry)) ((readReg s rd).getLsbD 15)
      false s) := rfl

theorem exec_rcr (rd : Reg) (s : State) :
    exec (.rcr rd) s = .next (writeResult rd (shiftInHigh (getFlag s .carry) (readReg s rd)) ((readReg s rd).getLsbD 0)
      false s) := rfl

/-! ### A result written over another -/

theorem getFlag_carry_writeResult (rd : Reg) (res : Word) (c v : Bool) (s : State) :
    getFlag (writeResult rd res c v s) .carry = c := getFlag_setFlags ..

theorem readReg_writeResult_self (rd : Reg) (res : Word) (c v : Bool) (s : State) :
    readReg (writeResult rd res c v s) rd = res := by
  rw [readReg_writeResult, if_pos rfl]

/-- Writing back what a register held undoes an earlier result on all registers. -/
theorem readReg_writeResult_restore (rd r : Reg) (res : Word) (c v c' v' : Bool) (s : State) :
    readReg (writeResult rd (readReg s rd) c' v' (writeResult rd res c v s)) r = readReg s r := by
  by_cases h : r = rd
  · rw [h, readReg_writeResult_self]
  · simp [h]

end Sys2Proof.Machine
end

section
/-! The obligations of 44_shift_rotate.md. -/

namespace Sys2Proof.Machine

/-- Settles O46: the handler is one result, the doubled register, with the bit moved out as carry. -/
theorem shlDoubles : Obligations.ShlDoubles :=
  ⟨encodedR_of_layout (op := 0x20) (fun _ _ => rfl) (fun _ _ _ _ => rfl), fun rd s =>
    ⟨_, BitVec.toNat_ofNat .., xor_fifteen_fourteen _, writesResult_of_exec_eq (exec_shl rd s) rfl rfl⟩⟩

/-- Settles O47: the sum of a register with itself, its carry and its overflow are those of the doubled register. -/
theorem shlIsAdditionToItself : Obligations.ShlIsAdditionToItself := by
  intro rd s
  have hresult (a : Word) : BitVec.ofNat 16 (a.toNat * 2) = a + a := by
    rw [Nat.mul_two, BitVec.ofNat_add, BitVec.ofNat_toNat, BitVec.setWidth_eq]
  have hcarry (a : Word) : a.getLsbD 15 = decide (0xFFFF < a.toNat + a.toNat) := by
    rw [← testBit_sixteen_double, testBit_sixteen (by omega), Nat.mul_two]
  have hoverflow (a : Word) : (a.getLsbD 15 ^^ a.getLsbD 14) = decide (OutOfRange (a.toInt + a.toInt)) := by
    rw [xor_fifteen_fourteen, mul_two]
  rw [exec_shl, exec_add, hresult, hoverflow, hcarry]

/-- Settles O48: SHR shifts in a zero, SAR the sign bit, and each is the floor of the half. -/
theorem shrAndSarHalve : Obligations.ShrAndSarHalve := by
  refine ⟨encodedR_of_layout (op := 0x21) (fun _ _ => rfl) (fun _ _ _ _ => rfl),
    encodedR_of_layout (op := 0x22) (fun _ _ => rfl) (fun _ _ _ _ => rfl), fun rd s => ⟨?_, ?_⟩⟩
  · exact ⟨_, (toNat_shiftInHigh ..).trans (by simp), writesResult_of_exec_eq (exec_shr rd s) rfl rfl⟩
  · exact ⟨_, toInt_shiftInHigh_sign _, getLsbD_shiftInHigh_fifteen .., writesResult_of_exec_eq (exec_sar rd s) rfl rfl⟩

/-- Settles O49: each rotate shifts the bit that leaves in at the other end, and clears the carry. -/
theorem rolAndRorRotateSixteenBits : Obligations.RolAndRorRotateSixteenBits := by
  refine ⟨encodedR_of_layout (op := 0x23) (fun _ _ => rfl) (fun _ _ _ _ => rfl),
    encodedR_of_layout (op := 0x24) (fun _ _ => rfl) (fun _ _ _ _ => rfl), fun rd s => ⟨?_, ?_⟩⟩
  · exact ⟨_, getLsbD_shiftInLow_zero .., fun _ => getLsbD_shiftInLow_succ _ _,
      writesResult_of_exec_eq (exec_rol rd s) rfl rfl⟩
  · exact ⟨_, getLsbD_shiftInHigh_fifteen .., fun _ => getLsbD_shiftInHigh _ _,
      writesResult_of_exec_eq (exec_ror rd s) rfl rfl⟩

/-- Settles O50: each rotate shifts the old carry in, and the bit that leaves is the new carry. -/
theorem rclAndRcrRotateThroughCarry : Obligations.RclAndRcrRotateThroughCarry := by
  refine ⟨encodedR_of_layout (op := 0x25) (fun _ _ => rfl) (fun _ _ _ _ => rfl),
    encodedR_of_layout (op := 0x26) (fun _ _ => rfl) (fun _ _ _ _ => rfl), fun rd s => ⟨?_, ?_⟩⟩
  · exact ⟨_, getLsbD_shiftInLow_zero .., fun _ => getLsbD_shiftInLow_succ _ _,
      writesResult_of_exec_eq (exec_rcl rd s) rfl rfl⟩
  · exact ⟨_, getLsbD_shiftInHigh_fifteen .., fun _ => getLsbD_shiftInHigh _ _,
      writesResult_of_exec_eq (exec_rcr rd s) rfl rfl⟩

/-- Settles O51: after either left rotate the old bit 15 is what the right one shifts in: after ROL it is bit 0, after RCL the
carry. -/
theorem rightRotatesUndoLeftRotates : Obligations.RightRotatesUndoLeftRotates := by
  refine fun rd s t => ⟨fun h => ?_, fun h => ?_⟩
  · obtain rfl := Host.Outcome.next.inj ((exec_rol rd s).symm.trans h)
    refine ⟨_, exec_ror .., fun r => ?_⟩
    rw [readReg_writeResult_self, getLsbD_shiftInLow_zero, shiftInHigh_shiftInLow]
    exact readReg_writeResult_restore ..
  · obtain rfl := Host.Outcome.next.inj ((exec_rcl rd s).symm.trans h)
    refine ⟨_, exec_rcr .., ?_⟩
    rw [readReg_writeResult_self, getFlag_carry_writeResult, getLsbD_shiftInLow_zero, shiftInHigh_shiftInLow]
    exact ⟨fun r => readReg_writeResult_restore .., getFlag_carry_writeResult ..⟩

end Sys2Proof.Machine
end

section
/-! SUPPORT. What the handlers of 45_control_flow.md leave and what the loop then adds: the jumps that always redirect, and the
conditional jumps by whether their flag is as wanted. -/

namespace Sys2Proof.Machine

/-- A handler that writes `rip` and always redirects: JMP, JMPR. -/
theorem spec_of_exec_eq_redirect {i : Instr} {s : State} {target : Word}
    (he : exec i s = .next (writeReg s .rip target)) (hr : redirects i s = true) :
    ∃ t, exec i s = .next t ∧ readReg t .rip = target ∧ OnlyRegs [.rip] s t ∧ ThenRedirected i s t :=
  ⟨_, he, readReg_writeReg_self .., onlyRegs_writeReg .., thenRedirected_of he hr⟩

theorem jumpTaken_eq_true_iff (f : Flag) (want : Bool) (s : State) : jumpTaken f want s = true ↔ getFlag s f = want :=
  beq_iff_eq

theorem readReg_rip_jumpIf (f : Flag) (want : Bool) (addr : Word) (s : State) :
    readReg (jumpIf f want addr s) .rip = if getFlag s f = want then addr else readReg s .rip := by
  simp only [readReg_jumpIf, jumpTaken_eq_true_iff, true_and]

/-- The handler writes `rip` at most; taken, the loop adds nothing, and not taken, it adds the two Words of the jump
(45_control_flow.md R105). -/
theorem ConditionalJump.spec {mk : Word → Instr} {f : Flag} {want : Bool} (h : ConditionalJump mk f want) (addr : Word)
    (s : State) :
    ∃ t, exec (mk addr) s = .next t ∧ OnlyRegs [.rip] s t ∧
      if getFlag s f = want then readReg t .rip = addr ∧ ThenRedirected (mk addr) s t
      else readReg t .rip = readReg s .rip ∧ ThenAdvances (mk addr) 2 s t := by
  have he := h.exec_eq addr s
  refine ⟨_, he, onlyRegs_jumpIf .., ?_⟩
  by_cases hflag : getFlag s f = want
  · have hredirects := (h.redirects_eq addr s).trans ((jumpTaken_eq_true_iff ..).mpr hflag)
    rw [if_pos hflag, readReg_rip_jumpIf, if_pos hflag]
    exact ⟨rfl, thenRedirected_of he hredirects⟩
  · have hredirects := (h.redirects_eq addr s).trans (Bool.eq_false_iff.mpr (mt (jumpTaken_eq_true_iff ..).mp hflag))
    rw [if_neg hflag, readReg_rip_jumpIf, if_neg hflag]
    exact ⟨rfl, thenAdvances_of he hredirects (h.length_eq addr)⟩

/-- A conditional jump of Safety.lean from its encoder, its decoder, its handler and its mark for the loop. -/
theorem jumpsWhen_of_layout {op : Nat} {mk : Word → Instr} {f : Flag} {want : Bool} (hop : op < 2 ^ 6)
    (he : ∀ x, encode (mk x) = [firstWord (BitVec.ofNat 6 op) 0 0, x])
    (hd : ∀ ra rb e1 e2, decodeFields (BitVec.ofNat 6 op) ra rb e1 e2 = decodeA (mk e1) ra rb)
    (hexec : ∀ addr s, exec (mk addr) s = .next (jumpIf f want addr s))
    (hredirects : ∀ addr s, redirects (mk addr) s = jumpTaken f want s) : JumpsWhen op mk f want := by
  have hencoded : EncodedA op false (fun x _ => mk x) := by
    simpa only [BitVec.toNat_ofNat, Nat.mod_eq_of_lt hop] using
      encodedA_of_layout (hasImm := false) (mk := fun x _ => mk x) (fun x _ => he x) hd
  have hjump : ConditionalJump mk f want :=
    ⟨hexec, hredirects, fun addr => by rw [instrLength_eq_length_encode, he]; rfl⟩
  exact ⟨hencoded, hjump.spec⟩

end Sys2Proof.Machine
end

section
/-! The obligations of 45_control_flow.md. -/

namespace Sys2Proof.Machine

/-- Settles O52: the handler is one write to `rip`, of the extension Word, and always redirects. -/
theorem jmpJumpsToItsAddress : Obligations.JmpJumpsToItsAddress :=
  ⟨encodedA_of_layout (op := 0x28) (fun _ _ => rfl) (fun _ _ _ _ => rfl), fun _ _ => spec_of_exec_eq_redirect rfl rfl⟩

/-- Settles O53: the handler is one write to `rip`, of what the register held before it, and always redirects. -/
theorem jmprJumpsThroughARegister : Obligations.JmprJumpsThroughARegister :=
  ⟨encodedR_of_layout (op := 0x29) (fun _ _ => rfl) (fun _ _ _ _ => rfl), fun _ _ => spec_of_exec_eq_redirect rfl rfl⟩

/-- Settles O54: the ten are one conditional jump, whose opcode, flag and polarity are those of the encoder, the decoder, the
handler and the mark. -/
theorem conditionalJumpsTestOneFlag : Obligations.ConditionalJumpsTestOneFlag := by
  refine ⟨?jz, ?jnz, ?js, ?jns, ?jc, ?jnc, ?jo, ?jno, ?jdz, ?jndz⟩ <;>
  exact jumpsWhen_of_layout (by decide) (fun _ => rfl) (fun _ _ _ _ => rfl) (fun _ _ => rfl) (fun _ _ => rfl)

end Sys2Proof.Machine
end

section
/-! SUPPORT. HLT in the loop: its handler never redirects, so the step that ends a run adds 1 to the `pc` of the HLT
(40_execution_loop.md R62, 46_halt.md R119). -/

namespace Sys2Proof.Machine

theorem exec_hlt (rs : Reg) (s : State) :
    exec (.hlt rs) s = .next { s with result := readReg s rs, status := .halted } := rfl

theorem thenAdvances_hlt (rs : Reg) (s : State) :
    ThenAdvances (.hlt rs) 1 s { s with result := readReg s rs, status := .halted } :=
  thenAdvances_length_encode (exec_hlt rs s) rfl

theorem step_eq_of_decodeAt_hlt {s : State} {rs : Reg} (hrun : s.status = .running) (hd : decodeAt s = .instr (.hlt rs)) :
    step s = .next { s with result := readReg s rs, status := .halted, rip := s.rip + 1 } :=
  thenAdvances_hlt rs s hrun hd

end Sys2Proof.Machine
end

section
/-! The obligations of 46_halt.md. -/

namespace Sys2Proof.Machine

/-- Settles O55: the handler writes `result` and `status` alone, HLT names no destination, and the loop advances past it. -/
theorem hltCapturesTheResult : Obligations.HltCapturesTheResult :=
  ⟨encodedR_of_layout (op := 0x38) (fun _ _ => rfl) (fun _ _ _ _ => rfl), fun rs s =>
    ⟨_, exec_hlt rs s, rfl, rfl, rfl, fun _ hr => (Effect.halt rs).readReg_of_not_mem hr, rfl, fun _ => rfl,
      thenAdvances_hlt rs s⟩⟩

/-- Settles O22: no effect but HLT's writes `status` or `result`; `status` changes by the two ends of a run alone
(`statusChangesOnlyByTheListedTransitions`), of which the one at a HLT is that HLT's step. -/
theorem onlyHaltAndFaultsEndARun : Obligations.OnlyHaltAndFaultsEndARun := by
  refine ⟨fun i s t he hnot => ?_, fun s t hrun hstep hended => ?_⟩
  · rcases (effect_of_exec he).sameLifecycle_or_halt with ⟨hstatus, hresult, _⟩ | ⟨rs, hhlt, _⟩
    · exact ⟨hstatus, hresult⟩
    · exact absurd hhlt (hnot rs)
  · have hchange : t.status ≠ s.status := hrun ▸ hended
    obtain ⟨_, ⟨hhalted, rs, hd⟩ | hfaulted⟩ := (statusChangesOnlyByTheListedTransitions s t).1 hstep hchange
    · obtain rfl := Host.Outcome.next.inj ((step_eq_of_decodeAt_hlt hrun hd).symm.trans hstep)
      exact .inl ⟨hhalted, rs, hd, rfl, rfl⟩
    · exact .inr hfaulted

end Sys2Proof.Machine
end

section
/-! SUPPORT. The step while Running by what the Words at `pc` decode to: fault entry where a check fails (60_exceptions.md R127,
R128), and no fault where an instruction decodes (R121). -/

namespace Sys2Proof.Machine

theorem fetchWord_zero (s : State) : fetchWord s 0 = memRead s s.rip := by simp [fetchWord]

theorem decodeAt_eq (s : State) : decodeAt s = decode (memRead s s.rip) (fetchWord s 1) (fetchWord s 2) := by
  rw [decodeAt, fetchWord_zero]

theorem step_of_invalidOpcode {s : State} (hrun : s.status = .running) (hd : decodeAt s = .invalidOpcode) :
    step s = .next (takeFault .invalidOpcode 0#5 s) := by
  simp only [step_of_running hrun, stepRunning, hd]

theorem step_of_invalidRegister {s : State} {id : RegField} (hrun : s.status = .running)
    (hd : decodeAt s = .invalidRegister id) : step s = .next (takeFault .invalidRegister id s) := by
  simp only [step_of_running hrun, stepRunning, hd]

/-- Fault entry writes the record of R128 and `status`, and nothing else. -/
theorem takesFault_of_step_eq {s : State} {cause : FaultCause} {id : RegField}
    (h : step s = .next (takeFault cause id s)) : TakesFault (causeCode cause) id s :=
  ⟨_, h, rfl, rfl, rfl, fetchWord_zero s, rfl, fun r _ => readReg_takeFault cause id s r, rfl, fun _ => rfl, rfl⟩

/-- No handler raises a fault: HLT ends the run in Halted, and every other keeps `status` (60_exceptions.md R121). -/
theorem Effect.raises_no_fault {i : Instr} {s t : State} (h : Effect s i t) (hrun : s.status = .running) :
    t.status ≠ .faulted ∧ t.fault = s.fault := by
  rcases h.sameLifecycle_or_halt with ⟨hstatus, _, hfault⟩ | ⟨rs, _, rfl⟩
  · exact ⟨by simp [hstatus, hrun], hfault⟩
  · exact ⟨nofun, rfl⟩

theorem step_of_instr_raises_no_fault {s : State} {i : Instr} (hrun : s.status = .running) (hd : decodeAt s = .instr i) :
    ∃ t, step s = .next t ∧ t.status ≠ .faulted ∧ t.fault = s.fault := by
  obtain ⟨u, he, heff⟩ := exec_effect i s
  exact ⟨_, step_of_instr hrun hd he, by simpa using heff.raises_no_fault hrun⟩

end Sys2Proof.Machine
end

section
/-! The obligations of 60_exceptions.md. -/

namespace Sys2Proof.Machine

/-- Settles O12: an idle step changes nothing, fault entry records what decoding at `pc` gave, and a handler with the loop's
advance keeps memory canonical and ends in Running or Halted. -/
theorem stepKeepsTheInvariant : Obligations.StepKeepsTheInvariant :=
  fun _ _ hs h => invariant_of_step hs h

/-- Settles O9: the decoder makes the checks in this order (`decodeChecksInFixedOrder`), and the step takes the fault it
answers. -/
theorem stepTakesTheFirstFailingCheck : Obligations.StepTakesTheFirstFailingCheck := by
  intro s hrun
  have hchecks := decodeChecksInFixedOrder (memRead s s.rip) (fetchWord s 1) (fetchWord s 2)
  simp only [← decodeAt_eq] at hchecks
  dsimp only
  split_ifs at hchecks ⊢
  · exact takesFault_of_step_eq (step_of_invalidOpcode hrun hchecks)
  · exact takesFault_of_step_eq (step_of_invalidOpcode hrun hchecks)
  · exact takesFault_of_step_eq (step_of_invalidRegister hrun hchecks)
  · exact takesFault_of_step_eq (step_of_invalidRegister hrun hchecks)
  · obtain ⟨i, hd⟩ := hchecks
    exact step_of_instr_raises_no_fault hrun hd

/-- Settles O11: outside Running the step is idle, and while Running each answer of the decoder has its next state. -/
theorem everyStepAnswersANextState : Obligations.EveryStepAnswersANextState := by
  refine ⟨fun s => ?_, fun s i hrun hd => ?_⟩
  · by_cases hrun : s.status = .running
    · rcases hd : decodeAt s with i | _ | id
      · obtain ⟨t, h, _⟩ := step_of_instr_raises_no_fault hrun hd
        exact ⟨t, h⟩
      · exact ⟨_, step_of_invalidOpcode hrun hd⟩
      · exact ⟨_, step_of_invalidRegister hrun hd⟩
    · exact ⟨s, step_of_not_running hrun⟩
  · obtain ⟨t, h, hstatus, _⟩ := step_of_instr_raises_no_fault hrun hd
    exact ⟨t, h, hstatus⟩

end Sys2Proof.Machine
end

section
/-! SUPPORT. The host's events as equations in the statuses that enable them, and an image as it reads back from memory
(70_reset_and_hazards.md R134 to R139). -/

namespace Sys2Proof.Machine

/-! ### Load, set-entry, start and boot -/

@[simp] theorem readReg_with_mem (s : State) (m : Memory) (r : Reg) : readReg { s with mem := m } r = readReg s r := by
  cases r <;> rfl

@[simp] theorem readReg_with_status (s : State) (st : Status) (r : Reg) :
    readReg { s with status := st } r = readReg s r := by cases r <;> rfl

theorem hostLoad_of_length_ne {image : List Byte} {s : State} (hready : s.status = .ready)
    (hlen : image.length ≠ Config.memBytes) : hostLoad image s = .refused .memoryLoadError := by
  rw [hostLoad, if_pos hready, if_neg hlen]

/-- Set-entry is a write to the slot the loop fetches from (10_state.md R10, R11). -/
theorem hostSetEntry_of_ready {s : State} (hready : s.status = .ready) (entry : Word) :
    hostSetEntry entry s = .next (writeReg s .rip entry) := hostSetEntry_eq_next_iff.mpr ⟨hready, rfl⟩

theorem hostStart_of_ready {s : State} (hready : s.status = .ready) : hostStart s = { s with status := .running } :=
  if_pos hready

theorem hostStart_of_ne_ready {s : State} (hready : s.status ≠ .ready) : hostStart s = s := if_neg hready

/-- The host's order of events, as the writes it makes to the state of reset (70_reset_and_hazards.md R139). -/
theorem boot_of_length_eq {image : List Byte} (hlen : image.length = Config.memBytes) (s : State) (entry : Word) :
    boot image s entry =
      .next { writeReg { State.reset with mem := imageMemory 0 image } .rip entry with status := .running } := by
  have hload : hostLoad image (hostReset s) = .next { State.reset with mem := imageMemory 0 image } :=
    hostLoad_eq_next_iff.mpr ⟨rfl, hlen, rfl⟩
  have hentry := hostSetEntry_of_ready (s := { State.reset with mem := imageMemory 0 image }) rfl entry
  simp only [boot, hload, hentry]
  exact congrArg Host.Outcome.next (hostStart_of_ready rfl)

/-! ### Reading an image back (70_reset_and_hazards.md R136) -/

theorem readByte_imageMemory_zero (image : List Byte) (n : Nat) : (imageMemory 0 image).readByte n = image.getD n 0 := by
  simp [Memory.readByte_imageMemory]

theorem readWord_imageMemory_zero (image : List Byte) (a : Word) :
    (imageMemory 0 image).readWord a = image.getD (2 * a.toNat + 1) 0 ++ image.getD (2 * a.toNat) 0 := by
  simp only [Memory.readWord, readByte_imageMemory_zero, lowByteOf]

theorem memoryImage_imageMemory {image : List Byte} (hlen : image.length = Config.memBytes) :
    memoryImage (imageMemory 0 image) = image := by
  apply List.ext_getElem
  · simp [memoryImage, hlen]
  · intro n _ hn
    simp [memoryImage, readByte_imageMemory_zero, hn]

/-! ### The Word 0x0000 in front of the loop (70_reset_and_hazards.md R134) -/

/-- Opcode 0 is unassigned (30_encoding.md R48), so a cleared cell is no instruction. -/
theorem decodeAt_of_memRead_eq_zero {s : State} (h : memRead s s.rip = 0) : decodeAt s = .invalidOpcode := by
  rw [decodeAt_eq, h]
  exact decodeFields_of_unassigned (by decide) ..

end Sys2Proof.Machine
end

section
/-! The obligations of 70_reset_and_hazards.md. -/

namespace Sys2Proof.Machine

/-- Settles O57: a load that happens writes memory alone, and memory made of an image reads back as the image. -/
theorem loadReplacesMemoryOrNothing : Obligations.LoadReplacesMemoryOrNothing := by
  refine fun s image => ⟨fun hready => ?_, fun t h => (hostLoad_eq_next_iff.mp h).1⟩
  split
  next hlen => exact hostLoad_of_length_ne hready hlen
  next hlen =>
    have hlen' : image.length = Config.memBytes := not_not.mp hlen
    exact ⟨_, hostLoad_eq_next_iff.mpr ⟨hready, hlen', rfl⟩, memoryImage_imageMemory hlen', readWord_imageMemory_zero image,
      fun r _ => readReg_with_mem s _ r, rfl, rfl, rfl, rfl⟩

/-- Settles O59: boot is three writes to the state of reset, memory, `pc` and status, so all else reads as after reset. -/
theorem bootReachesTheFirstFetch : Obligations.BootReachesTheFirstFetch := by
  intro s image entry hlen
  refine ⟨_, boot_of_length_eq hlen s entry, rfl, rfl, fun r hr => ?_, getFlag_reset, readByte_imageMemory_zero image, rfl, rfl⟩
  rw [readReg_with_status, readReg_writeReg_of_ne _ _ hr, readReg_with_mem, readReg_reset]

/-- Settles O58: set-entry is a write of `rip`, and start a write of the status; each happens in Ready only. -/
theorem entryAndStartActOnlyInReady : Obligations.EntryAndStartActOnlyInReady := by
  refine fun s entry => ⟨fun hready => ?_, fun t h => (hostSetEntry_eq_next_iff.mp h).1, fun hready => ?_,
    hostStart_of_ne_ready⟩
  · exact ⟨_, hostSetEntry_of_ready hready entry, rfl, onlyRegs_writeReg s .rip entry⟩
  · rw [hostStart_of_ready hready]
    exact ⟨rfl, fun r _ => readReg_with_status s .running r, rfl, fun _ => rfl, rfl, rfl⟩

/-- Settles O60: the first fetch reads a cleared cell, which no opcode names, and fault entry records it. -/
theorem startWithoutLoadFaultsAtZero : Obligations.StartWithoutLoadFaultsAtZero := by
  have hword : memRead (hostStart State.reset) (hostStart State.reset).rip = 0 := memRead_reset 0
  refine ⟨memRead_reset, _, step_of_invalidOpcode rfl (decodeAt_of_memRead_eq_zero hword), rfl, rfl, rfl, ?_, rfl, rfl⟩
  exact (fetchWord_zero _).trans hword

end Sys2Proof.Machine
end
